-- ==== Sys2Proof/Word.lean ====
section
/-! DEFINITION. The two widths of data the spec names: the 16-bit word and the channels' byte.
Arithmetic on words is in Machine/Alu.lean and the byte order of an image in Machine/HostSide.lean. -/

namespace Sys2Proof

/-- A 16-bit word: a memory cell, a register, a stack entry, the instruction pointer (R5, R21, R23, R27, R40). -/
abbrev Word := BitVec 16

/-- A byte of the input or output channel, the only data narrower than a word (R46). -/
abbrev Byte := BitVec 8

end Sys2Proof
end

