-- ==== Sys2Proof/Config.lean ====
section
/-! DEFINITION. The implementation parameters of R5. All are fixed by the spec but STACK_CAPACITY,
which the spec leaves open with a default (R24, decision D5). -/

namespace Sys2Proof

/-- `MEM_WORDS`: the memory has 32768 cells (R5, R40). -/
abbrev memWords : Nat := 32768

/-- `MEM_ADDR_MAX`: the largest address (R5). -/
abbrev memAddrMax : Word := 32767#16

/-- `MOD_VALUE`: the modulus of Add and Mult (R5). -/
abbrev modValue : Nat := 32768

/-- `NOT_MASK` (R5). -/
abbrev notMask : Word := 0x7fff#16

/-- `STACK_CAPACITY`: "a positive integer or unbounded, default unbounded" (D5; R5, R24).
`State.inv` asks that a finite capacity be positive. -/
inductive StackCapacity where
  | unbounded
  | words (n : Nat)
  deriving DecidableEq, Repr

/-- What is fixed for one machine: no instruction reads it as an operand or writes it. -/
structure Config where
  stackCapacity : StackCapacity
  deriving DecidableEq, Repr

/-- The spec's default machine: an unbounded stack (R5). -/
def Config.default : Config := { stackCapacity := .unbounded }

end Sys2Proof
end

