-- ==== Sys2Proof/Syntax.lean ====
section
/-! DEFINITION. The instruction set SYNACOR-22 as syntax: one constructor per row of the opcode map (R64),
operands in encoding order (R9). The constructor of the row `In` is `inp`, because `in` is a word of Lean. -/

namespace Sys2Proof

/-- A register number: the file has exactly eight registers, with no aliases (R20). -/
abbrev RegId := Fin 8

/-- An operand (R9): a literal used as its value, or a reference to a register.
A literal lies in 0..32767 (R66); `Operand.wf` checks it. -/
inductive Operand where
  | lit (v : Word)
  | reg (i : RegId)
  deriving DecidableEq, Repr

/-- The 22 instructions, in the order of their opcode values 0 to 21 (R64). Which operand is a destination
and which a source is R63. -/
inductive Instr where
  | halt
  | set (a b : Operand)
  | push (a : Operand)
  | pop (a : Operand)
  | eq (a b c : Operand)
  | gt (a b c : Operand)
  | jmp (a : Operand)
  | jt (a b : Operand)
  | jf (a b : Operand)
  | add (a b c : Operand)
  | mult (a b c : Operand)
  | mod (a b c : Operand)
  | and (a b c : Operand)
  | or (a b c : Operand)
  | not (a b : Operand)
  | rmem (a b : Operand)
  | wmem (a b : Operand)
  | call (a : Operand)
  | ret
  | out (a : Operand)
  | inp (a : Operand)
  | noop
  deriving DecidableEq, Repr

/-- The operands in encoding order (R62, R63). -/
def Instr.operands : Instr → List Operand
  | .halt => []
  | .set a b => [a, b]
  | .push a => [a]
  | .pop a => [a]
  | .eq a b c => [a, b, c]
  | .gt a b c => [a, b, c]
  | .jmp a => [a]
  | .jt a b => [a, b]
  | .jf a b => [a, b]
  | .add a b c => [a, b, c]
  | .mult a b c => [a, b, c]
  | .mod a b c => [a, b, c]
  | .and a b c => [a, b, c]
  | .or a b c => [a, b, c]
  | .not a b => [a, b]
  | .rmem a b => [a, b]
  | .wmem a b => [a, b]
  | .call a => [a]
  | .ret => []
  | .out a => [a]
  | .inp a => [a]
  | .noop => []

/-- The destination operand, if the instruction has one: operand `a` of Set, Pop, Eq, Gt, Add, Mult, Mod, And,
Or, Not, RMem and In, and of no other (R20, R63). WMem's `a` is a source. -/
def Instr.dest : Instr → Option Operand
  | .halt => none
  | .set a _ => some a
  | .push _ => none
  | .pop a => some a
  | .eq a _ _ => some a
  | .gt a _ _ => some a
  | .jmp _ => none
  | .jt _ _ => none
  | .jf _ _ => none
  | .add a _ _ => some a
  | .mult a _ _ => some a
  | .mod a _ _ => some a
  | .and a _ _ => some a
  | .or a _ _ => some a
  | .not a _ => some a
  | .rmem a _ => some a
  | .wmem _ _ => none
  | .call _ => none
  | .ret => none
  | .out _ => none
  | .inp a => some a
  | .noop => none

/-- The length in words: the opcode word and one word an operand (R62). -/
def Instr.length (i : Instr) : Nat := 1 + i.operands.length

end Sys2Proof
end

