-- ==== Sys2Proof/Machine/State.lean ====
section
/-! DEFINITION. Everything the machine holds, as plain data: the architectural tuple of 10_state.md (R36), the wait
of an In instruction (R34), the host's two channels as CORE sees them (R182, R220), and the machine's parameters
(R5). Then the reasons for which a step of the model can stop, and the state after reset. -/

namespace Sys2Proof.Machine

/-- Which side of the memory interface an access is on (R42, R43). -/
inductive Access where
  | read
  | write
  deriving DecidableEq, Repr

/-- The spec's fault kinds 1 to 10, each with the `info` it records (R200). A fault is a state of the machine that
the fault register names, not a stop of the model: raising one leads to a next state (`State.raise`). -/
inductive FaultKind where
  /-- Kind 1: an access at an address above 32767; by a fetch, RMem, WMem or the host's load. -/
  | memoryOutOfBounds (access : Access) (addr max : Word)
  /-- Kind 2: an operand word in 32776..65535; by decode. -/
  | invalidOperand (word : Word)
  /-- Kind 3: an opcode word outside 0..21; by decode. -/
  | invalidOpcode (word : Word)
  /-- Kind 4: Pop on an empty stack. -/
  | stackUnderflow
  /-- Kind 5: a destination write to a literal, whose value is recorded. -/
  | invalidWrite (literal : Word)
  /-- Kind 6: In finds the input channel closed. -/
  | inputChannelClosed
  /-- Kind 7: In finds that the input channel failed. -/
  | inputError
  /-- Kind 8: the host's word stream cannot be fully read; by the host's load only. -/
  | loadError
  /-- Kind 9: Mod with a zero divisor. -/
  | divisionByZero
  /-- Kind 10: Push or Call on a full stack of finite capacity. -/
  | stackOverflow (depth : Nat)
  deriving DecidableEq, Repr

/-- What the fault register holds once a fault was raised (R30): the kind with its info, and the address of the
opcode word of the instruction that faulted. -/
structure FaultRecord where
  kind    : FaultKind
  faultIp : Word
  deriving DecidableEq, Repr

/-- The three answers the host can give an In (R181, D11). -/
inductive InputAnswer where
  | byte (b : Byte)
  | closed
  | error
  deriving DecidableEq, Repr

/-- An In instruction that holds for the host's answer (R34, R89): its destination operand and the address of its
opcode word, which a fault of the rest of the step records. -/
structure InWait where
  dest   : Operand
  opAddr : Word
  deriving DecidableEq, Repr

/-- The memory `M` (R35, R40): its cells by address, addresses rising, only the cells that are not 0.
Machine/Memory.lean reads and writes it; `Memory.wf` is the form. The unit is the spec's own, the whole 16-bit
cell: no address names a byte (R40, log entry 6). -/
abbrev Memory := List (Nat × Word)

/-- The state of the machine (R36; the last four fields: log entries 2, 3, 4 and 5). -/
structure State where
  /-- `x[0]` to `x[7]`, 16 bits each (R20, R21). -/
  regs   : Vector Word 8
  /-- The operand stack `S`: its last element is the top (R7, R23). -/
  stack  : List Word
  /-- The instruction pointer (R27). -/
  ip     : Word
  /-- The one-way halted flag (R29). -/
  halted : Bool
  /-- The fault register (R30). -/
  fault  : Option FaultRecord
  /-- The memory (R35). -/
  mem    : Memory
  /-- The In instruction that waits for its answer, if one does (R34, R89). -/
  inWait : Option InWait
  /-- The host's answers that no In has taken yet, the next one first (R181, R220, D11). -/
  input  : List InputAnswer
  /-- The bytes sent on the output channel since reset, the oldest first (R180, D12). -/
  output : List Byte
  /-- The machine's parameters (R5); nothing writes them. -/
  cfg    : Config
  deriving DecidableEq, Repr

/-- Why a step of the model has no next state. The spec's faults are not here: they are states (`FaultKind`). -/
inductive Fault where
  /-- Raised by `step` in a state whose `halted` flag is set: such a state has no step (R80, R88, D16). Safe: the
  spec gives it no step. -/
  | noStepHalted
  /-- Raised by `step` in a state whose fault register is not empty: CORE takes no step (R30, R80, R205). Safe: the
  spec gives it no step. -/
  | noStepFaulted
  /-- Raised by `step` in a state in which an In holds and the host has not answered: CORE is stuck in that step until
  the host answers (R181, D11; 93_implementation_defined.md I5). Safe: the spec gives it no step. -/
  | inputNotAnswered
  deriving DecidableEq, Repr

/-- Why an instruction has no meaning. Every instruction of the table has one, so nothing raises a refusal now. -/
inductive Refusal where
  /-- Raised by an arm of `exec` whose instruction has no meaning yet. Safe: nothing can be proved of its effect. -/
  | notModelled (mnemonic : String)
  deriving DecidableEq, Repr

/-- Reset (R231): the value of R36 for every piece of architectural state, with no image loaded, so that every cell
is 0 (R232). No In waits. The host has answered nothing and has been sent nothing (log entries 3 and 4), and the stack
capacity is the spec's default (log entry 5). -/
def State.reset : State where
  regs   := Vector.replicate 8 0#16
  stack  := []
  ip     := 0#16
  halted := false
  fault  := none
  mem    := []
  inWait := none
  input  := []
  output := []
  cfg    := Config.default

end Sys2Proof.Machine
end

