-- ==== Sys2Proof/Machine/Memory.lean ====
section
/-! DEFINITION. Memory as a list in one canonical form, and the memory interface of 20_memory.md: the only way CORE
reaches a cell (R35, R41). -/

namespace Sys2Proof.Machine

/-- What a cell that the list does not name reads as: 0, the value of every cell that neither the image nor a WMem
reached (R49, R232). -/
def unlistedWord : Word := 0#16

/-- The canonical form, for cells from address `lo` up: addresses strictly rising and below 32768 (R40), and no cell
that reads as an unlisted one. -/
def Memory.wfFrom (lo : Nat) : Memory → Bool
  | [] => true
  | (a, v) :: rest =>
    decide (lo ≤ a) && decide (a < memWords) && (v != unlistedWord) && Memory.wfFrom (a + 1) rest

/-- The canonical form: equal memories are equal lists. -/
def Memory.wf (m : Memory) : Bool := Memory.wfFrom 0 m

/-- The content of the cell at `a` (R40). -/
def Memory.read : Memory → Nat → Word
  | [], _ => unlistedWord
  | (b, v) :: rest, a => if a = b then v else Memory.read rest a

/-- Put a cell in front, but for a value that an unlisted cell has. -/
def Memory.consCell (a : Nat) (v : Word) (m : Memory) : Memory :=
  if v = unlistedWord then m else (a, v) :: m

/-- Store `v` in the cell at `a`, in canonical form. -/
def Memory.write : Memory → Nat → Word → Memory
  | [], a, v => Memory.consCell a v []
  | (b, u) :: rest, a, v =>
    if a < b then Memory.consCell a v ((b, u) :: rest)
    else if a = b then Memory.consCell a v rest
    else (b, u) :: Memory.write rest a v

/-- `MemRead(addr, 1)` (R42): the word, or the fault that names the access, the address and the largest address. -/
def memRead (m : Memory) (addr : Word) : Except FaultKind Word :=
  if addr.toNat ≤ memAddrMax.toNat then .ok (m.read addr.toNat)
  else .error (.memoryOutOfBounds .read addr memAddrMax)

/-- `MemWrite(addr, 1, v)` (R43): the memory after the store of the whole 16-bit value, or the fault. -/
def memWrite (m : Memory) (addr v : Word) : Except FaultKind Memory :=
  if addr.toNat ≤ memAddrMax.toNat then .ok (m.write addr.toNat v)
  else .error (.memoryOutOfBounds .write addr memAddrMax)

/-- Store words in rising cells from `a` on. Words past the last cell are dropped: only `State.withFetchWord` uses
this. The host's load checks each store instead (Machine/HostSide.lean). -/
def Memory.storeWords (m : Memory) (a : Nat) : List Word → Memory
  | [] => m
  | w :: ws => Memory.storeWords (if a < memWords then m.write a w else m) (a + 1) ws

end Sys2Proof.Machine
end

