-- ==== Sys2Proof/Machine/Ops.lean ====
section
/-! DEFINITION. The shared operations over the state: raising a fault (60_exceptions.md), registers, the instruction
pointer, the stack, halting and the channels. Each primitive of R8 is one operation here or in Machine/Memory.lean
and Machine/Operands.lean. There is no return from a fault (R205, R207): only a reset leaves it. -/

namespace Sys2Proof.Machine

/-- The outcome of a step of this machine. -/
abbrev Outcome := Host.Outcome State Fault Refusal

/-- `raise F(info)` (R204): the fault register gets the kind and the address of the faulting instruction's opcode
word, and nothing else changes. There is no vector, no handler, no mode and no push. -/
def State.raise (s : State) (opAddr : Word) (k : FaultKind) : State :=
  { s with fault := some { kind := k, faultIp := opAddr } }

/-- The content of register `i` (R20). -/
def State.reg (s : State) (i : RegId) : Word := s.regs[i.val]

/-- `x[i] <- v`: all 16 bits (R21, R85). -/
def State.setReg (s : State) (i : RegId) (v : Word) : State :=
  { s with regs := s.regs.set i.val v }

/-- `ip <- q` before execute (R82): past an instruction of `len` words at `ip`. Where a decoded instruction stands,
`q` is at most 32768 and the sum does not wrap (`fetchDecode_fits`). -/
def State.advance (s : State) (len : Word) : State := { s with ip := s.ip + len }

/-- `ip <- target`, the last effect of a control transfer, with no check of the target (R87, R135). -/
def State.jump (s : State) (target : Word) : State := { s with ip := target }

/-- The state with another memory. -/
def State.setMem (s : State) (m : Memory) : State := { s with mem := m }

/-- The state with another stack. -/
def State.setStack (s : State) (l : List Word) : State := { s with stack := l }

/-- The state with other answers to come from the host. -/
def State.setInput (s : State) (l : List InputAnswer) : State := { s with input := l }

/-- The halted flag is set; nothing clears it (R29). -/
def State.halt (s : State) : State := { s with halted := true }

/-- Whether a stack of `depth` entries is full (R24). An unbounded one never is. -/
def StackCapacity.isFull (depth : Nat) : StackCapacity → Bool
  | .unbounded => false
  | .words n => decide (n ≤ depth)

/-- Whether the stack holds as many entries as it can (R24). -/
def State.stackFull (s : State) : Bool := StackCapacity.isFull s.stack.length s.cfg.stackCapacity

/-- `Push(v)` (R24): the value becomes the last element, or the full stack faults with its depth. -/
def State.push (s : State) (v : Word) : Except FaultKind State :=
  if s.stackFull then .error (.stackOverflow s.stack.length)
  else .ok (s.setStack (s.stack ++ [v]))

/-- `Pop()` (R25): the last element and the state without it; `none` on an empty stack, which each use handles. -/
def State.pop (s : State) : Option (Word × State) :=
  match s.stack.getLast? with
  | none => none
  | some v => some (v, s.setStack s.stack.dropLast)

/-- `OutWrite(b)` (R180): the byte goes to the end of the output, and the host always accepts it (D12). -/
def State.outWrite (s : State) (b : Byte) : State := { s with output := s.output ++ [b] }

/-- The machine holds in an In instruction (R89): its destination and opcode address are kept for the rest of it. -/
def State.beginWait (s : State) (w : InWait) : State := { s with inWait := some w }

/-- The wait is over. -/
def State.endWait (s : State) : State := { s with inWait := none }

/-- `InRead()` (R181): the host's next answer and the state without it; `none` while the host has not answered. -/
def State.inRead (s : State) : Option (InputAnswer × State) :=
  match s.input with
  | [] => none
  | r :: rest => some (r, s.setInput rest)

/-- The end of a step whose last action can fault: its state, or `s` with the fault raised (R83, R204). -/
def orRaise (opAddr : Word) (s : State) : Except FaultKind State → Outcome
  | .ok t => .next t
  | .error k => .next (s.raise opAddr k)

end Sys2Proof.Machine
end

