-- ==== Sys2Proof/Machine/Flags.lean ====
section
/-! DEFINITION. CORE has no status flags, condition codes or predicate registers (R32): no instruction sets or reads a
flag. What stands in their place: the 0 or 1 a comparison writes, the test of a conditional jump, and the run state,
which is derived from `halted` and `fault` (R31). -/

namespace Sys2Proof.Machine

/-- The value a comparison writes (R120, R121): exactly 1 or 0. -/
def truthWord (b : Bool) : Word := if b then 1#16 else 0#16

/-- What Jt and Jf test: any nonzero 16-bit value is true (R131). -/
def isNonzero (v : Word) : Bool := decide (v ≠ 0#16)

/-- The run state (R31). -/
inductive RunState where
  | running
  | halted
  | faulted
  deriving DecidableEq, Repr

/-- The run state of a state (R31). Both conditions never hold together (`State.inv`). -/
def State.runState (s : State) : RunState :=
  if s.halted then .halted else if s.fault.isSome then .faulted else .running

/-- The numeric code of a fault kind (R200, D4). -/
def FaultKind.code : FaultKind → Nat
  | .memoryOutOfBounds _ _ _ => 1
  | .invalidOperand _ => 2
  | .invalidOpcode _ => 3
  | .stackUnderflow => 4
  | .invalidWrite _ => 5
  | .inputChannelClosed => 6
  | .inputError => 7
  | .loadError => 8
  | .divisionByZero => 9
  | .stackOverflow _ => 10

/-- The code the host sees in the fault register: 0 while there is no fault (R200, R206). -/
def State.faultCode (s : State) : Nat :=
  match s.fault with
  | none => 0
  | some r => r.kind.code

end Sys2Proof.Machine
end

