-- ==== Sys2Proof/Machine/Alu.lean ====
section
/-! DEFINITION. The arithmetic logic unit (R2): each operation as a function of 16-bit values, computed exactly on
natural numbers where the spec says exact, and narrowed once. Everything is unsigned (R6, R156). -/

namespace Sys2Proof.Machine

/-- Add (R150): the exact sum mod 32768. -/
def aluAdd (b c : Word) : Word := BitVec.ofNat 16 ((b.toNat + c.toNat) % modValue)

/-- Mult (R151): the exact product mod 32768. -/
def aluMult (b c : Word) : Word := BitVec.ofNat 16 ((b.toNat * c.toNat) % modValue)

/-- Mod (R152): the unsigned remainder, not folded; `none` for a zero divisor, which faults. -/
def aluMod (b c : Word) : Option Word :=
  if c = 0#16 then none else some (BitVec.ofNat 16 (b.toNat % c.toNat))

/-- And (R153): all 16 bits, not folded. -/
def aluAnd (b c : Word) : Word := b &&& c

/-- Or (R154): all 16 bits, not folded. -/
def aluOr (b c : Word) : Word := b ||| c

/-- Not (R155): the complement masked to 15 bits. -/
def aluNot (b : Word) : Word := ~~~b &&& notMask

/-- Eq (R120): 1 if the 16-bit values are equal, else 0. -/
def aluEq (b c : Word) : Word := truthWord (decide (b = c))

/-- Gt (R121): 1 if `b` is strictly greater as an unsigned 16-bit value, else 0. -/
def aluGt (b c : Word) : Word := truthWord (decide (b.toNat > c.toNat))

end Sys2Proof.Machine
end

