-- ==== Sys2Proof/Machine/Operands.lean ====
section
/-! DEFINITION. Operand access: the two forms an operand has (R9), read with `get` (R84) and written with `set` (R85).
The one addressing mode of RMem and WMem is the value of a source operand (R172), so it is `get` as well. -/

namespace Sys2Proof.Machine

/-- `get(op)` (R84): a literal's value, or the register's current 16-bit content. It never faults. -/
def State.getOp (s : State) : Operand → Word
  | .lit v => v
  | .reg i => s.reg i

/-- `set(op, v)` (R85): a register is written; a literal raises `InvalidWrite` with the literal's value (R200, C7)
and writes no register. -/
def State.setOp (s : State) (opAddr : Word) (op : Operand) (v : Word) : State :=
  match op with
  | .reg i => s.setReg i v
  | .lit l => s.raise opAddr (.invalidWrite l)

/-- The shape of every instruction that only computes a value for its destination: `ip` goes past its `len` words,
then the destination write is its last effect (R83). -/
def writeResult (len : Word) (dest : Operand) (v : Word) (s : State) : Outcome :=
  .next ((s.advance len).setOp s.ip dest v)

end Sys2Proof.Machine
end

