-- ==== Sys2Proof/Machine/ArithLogic.lean ====
section
/-! DEFINITION. Arithmetic and logic (45_arith_logic.md): Add, Mult, Mod, And, Or and Not. -/

namespace Sys2Proof.Machine

/-- Add (R150). -/
def execAdd (a b c : Operand) (s : State) : Outcome := writeResult 4#16 a (aluAdd (s.getOp b) (s.getOp c)) s

/-- Mult (R151). -/
def execMult (a b c : Operand) (s : State) : Outcome := writeResult 4#16 a (aluMult (s.getOp b) (s.getOp c)) s

/-- Mod (R152): the zero check comes before the destination write (R202). -/
def execMod (a b c : Operand) (s : State) : Outcome :=
  match aluMod (s.getOp b) (s.getOp c) with
  | none => .next ((s.advance 4#16).raise s.ip .divisionByZero)
  | some v => writeResult 4#16 a v s

/-- And (R153). -/
def execAnd (a b c : Operand) (s : State) : Outcome := writeResult 4#16 a (aluAnd (s.getOp b) (s.getOp c)) s

/-- Or (R154). -/
def execOr (a b c : Operand) (s : State) : Outcome := writeResult 4#16 a (aluOr (s.getOp b) (s.getOp c)) s

/-- Not (R155). -/
def execNot (a b : Operand) (s : State) : Outcome := writeResult 3#16 a (aluNot (s.getOp b)) s

end Sys2Proof.Machine
end

