-- ==== Sys2Proof/Machine/ByteIO.lean ====
section
/-! DEFINITION. Byte input and output (47_io.md): Out and In. An In for which the host has no answer yet holds in the
middle of its step (R89, R181): the state in which it holds is `inWait`, and `resumeIn` is the rest of the step. -/

namespace Sys2Proof.Machine

/-- Out (R180): bits [7:0] of the value. -/
def execOut (a : Operand) (s : State) : Outcome :=
  .next ((s.advance 2#16).outWrite ((s.getOp a).setWidth 8))

/-- What an In does with the host's answer (R181): the byte zero-extended to its destination, or a fault. -/
def State.takeAnswer (s : State) (w : InWait) : InputAnswer → State
  | .byte b => s.setOp w.opAddr w.dest (b.setWidth 16)
  | .closed => s.raise w.opAddr .inputChannelClosed
  | .error => s.raise w.opAddr .inputError

/-- The rest of an In that holds: it takes the host's answer, or there is no step while there is none (R181, D11). -/
def resumeIn (w : InWait) (s : State) : Outcome :=
  match s.inRead with
  | none => .fault .inputNotAnswered
  | some (r, t) => .next (t.endWait.takeAnswer w r)

/-- In (R181): with the host's answer there, the whole step; with none, the machine holds, its decode and its `ip`
update done and nothing else (R89). -/
def execIn (a : Operand) (s : State) : Outcome :=
  match (s.advance 2#16).inRead with
  | none => .next ((s.advance 2#16).beginWait { dest := a, opAddr := s.ip })
  | some (r, t) => .next (t.takeAnswer { dest := a, opAddr := s.ip } r)

end Sys2Proof.Machine
end

