-- ==== Sys2Proof/Machine/Compare.lean ====
section
/-! DEFINITION. Comparisons (43_compare.md): Eq and Gt. -/

namespace Sys2Proof.Machine

/-- Eq (R120). -/
def execEq (a b c : Operand) (s : State) : Outcome := writeResult 4#16 a (aluEq (s.getOp b) (s.getOp c)) s

/-- Gt (R121). -/
def execGt (a b c : Operand) (s : State) : Outcome := writeResult 4#16 a (aluGt (s.getOp b) (s.getOp c)) s

end Sys2Proof.Machine
end

