-- ==== Sys2Proof/Machine/ControlTransfer.lean ====
section
/-! DEFINITION. Control transfer (44_control_transfer.md): Jmp, Jt, Jf, Call and Ret. Targets are absolute and not
checked when written (R135). -/

namespace Sys2Proof.Machine

/-- Jmp (R130). -/
def execJmp (a : Operand) (s : State) : Outcome := .next ((s.advance 2#16).jump (s.getOp a))

/-- Jt (R131). -/
def execJt (a b : Operand) (s : State) : Outcome :=
  .next (if isNonzero (s.getOp a) then (s.advance 3#16).jump (s.getOp b) else s.advance 3#16)

/-- Jf (R132). -/
def execJf (a b : Operand) (s : State) : Outcome :=
  .next (if isNonzero (s.getOp a) then s.advance 3#16 else (s.advance 3#16).jump (s.getOp b))

/-- Call (R133): the address after the instruction is pushed, then `ip` gets the target. On a full stack `ip` stays
at the address after the instruction. -/
def execCall (a : Operand) (s : State) : Outcome :=
  match (s.advance 2#16).push (s.advance 2#16).ip with
  | .ok t => .next (t.jump (s.getOp a))
  | .error k => .next ((s.advance 2#16).raise s.ip k)

/-- Ret (R134): an empty stack halts, with `ip` at the address after the instruction (D15). -/
def execRet (s : State) : Outcome :=
  match (s.advance 1#16).pop with
  | some (v, t) => .next (t.jump v)
  | none => .next (s.advance 1#16).halt

end Sys2Proof.Machine
end

