-- ==== Sys2Proof/Machine/MachineControl.lean ====
section
/-! DEFINITION. Machine control (41_machine_control.md): Halt and Noop.
Here and in every other family file a meaning starts with `ip` at the instruction's opcode word, the address that a
fault of it records, and makes the step's `ip` update itself (R82; log entry 9). -/

namespace Sys2Proof.Machine

/-- Halt (R100). -/
def execHalt (s : State) : Outcome := .next (s.advance 1#16).halt

/-- Noop (R101). -/
def execNoop (s : State) : Outcome := .next (s.advance 1#16)

end Sys2Proof.Machine
end

