-- ==== Sys2Proof/Machine/MemoryAccess.lean ====
section
/-! DEFINITION. Memory access (46_memory_access.md): RMem and WMem. The address is the value of a source operand,
as it stands (R172). -/

namespace Sys2Proof.Machine

/-- RMem (R170): the memory fault comes before the destination write (R202). -/
def execRmem (a b : Operand) (s : State) : Outcome :=
  match memRead s.mem (s.getOp b) with
  | .ok v => writeResult 3#16 a v s
  | .error k => .next ((s.advance 3#16).raise s.ip k)

/-- WMem (R171): both operands are sources. -/
def execWmem (a b : Operand) (s : State) : Outcome :=
  match memWrite s.mem (s.getOp a) (s.getOp b) with
  | .ok m => .next ((s.advance 3#16).setMem m)
  | .error k => .next ((s.advance 3#16).raise s.ip k)

end Sys2Proof.Machine
end

