-- ==== Sys2Proof/Machine/RegisterStack.lean ====
section
/-! DEFINITION. Register and stack moves (42_register_stack.md): Set, Push and Pop. -/

namespace Sys2Proof.Machine

/-- Set (R110). -/
def execSet (a b : Operand) (s : State) : Outcome := writeResult 3#16 a (s.getOp b) s

/-- Push (R111). -/
def execPush (a : Operand) (s : State) : Outcome :=
  orRaise s.ip (s.advance 2#16) ((s.advance 2#16).push (s.getOp a))

/-- Pop (R112): underflow comes before the destination write, and a literal destination faults after the pop (R202). -/
def execPop (a : Operand) (s : State) : Outcome :=
  match (s.advance 2#16).pop with
  | none => .next ((s.advance 2#16).raise s.ip .stackUnderflow)
  | some (v, t) => .next (t.setOp s.ip a v)

end Sys2Proof.Machine
end

