-- ==== Sys2Proof/WellFormed.lean ====
section
/-! DEFINITION. What the encoding can express: a literal operand lies in 0..32767 (R66). The other bounds
(eight registers, the operand count of each opcode) are in the types of Syntax.lean. A literal in a destination
position is well formed: it decodes, and faults only when it executes (R71). -/

namespace Sys2Proof

/-- A literal is a value the encoding can hold (R66, R67). -/
def Operand.wf : Operand → Bool
  | .lit v => decide (v.toNat ≤ 32767)
  | .reg _ => true

/-- Every operand is one that an operand word can stand for. -/
def Instr.wf (i : Instr) : Bool := i.operands.all Operand.wf

end Sys2Proof
end

