-- ==== Sys2Proof/Decode.lean ====
section
/-! DEFINITION. The decoder, from the words of the instruction stream to an instruction or a named rejection,
and after it the encoder. Both are written from the opcode map (R64) and the operand encoding (R66).
Machine/Fetch.lean reads the words from memory and turns a rejection into the fault it raises. -/

namespace Sys2Proof

/-- Why words are no instruction. `missingWord k` is the end of the words before word `k` of the instruction
(word 0 is the opcode word): in memory, a word at an address above 32767 (R73). -/
inductive DecodeReject where
  | missingWord (k : Nat)
  | invalidOpcode (w : Word)
  | invalidOperand (w : Word)
  deriving DecidableEq, Repr

/-- `classify` (R66): a literal, a register reference, or an invalid operand word. It reads only the word (R68). -/
def classify (w : Word) : Except DecodeReject Operand :=
  if w.toNat ≤ 32767 then .ok (.lit w)
  else if h : w.toNat ≤ 32775 then .ok (.reg ⟨w.toNat - 32768, by omega⟩)
  else .error (.invalidOperand w)

/-- Read and classify the operand word that stands at offset `k` in the instruction (R68, R73). -/
def takeOperand (k : Nat) : List Word → Except DecodeReject (Operand × List Word)
  | [] => .error (.missingWord k)
  | w :: rest =>
    match classify w with
    | .ok op => .ok (op, rest)
    | .error e => .error e

/-- Format F1: one operand (R62). -/
def decodeF1 (mk : Operand → Instr) (ws : List Word) : Except DecodeReject (Instr × List Word) :=
  match takeOperand 1 ws with
  | .error e => .error e
  | .ok (a, ws1) => .ok (mk a, ws1)

/-- Format F2: two operands, in order (R62, R68). -/
def decodeF2 (mk : Operand → Operand → Instr) (ws : List Word) :
    Except DecodeReject (Instr × List Word) :=
  match takeOperand 1 ws with
  | .error e => .error e
  | .ok (a, ws1) =>
    match takeOperand 2 ws1 with
    | .error e => .error e
    | .ok (b, ws2) => .ok (mk a b, ws2)

/-- Format F3: three operands, in order (R62, R68). -/
def decodeF3 (mk : Operand → Operand → Operand → Instr) (ws : List Word) :
    Except DecodeReject (Instr × List Word) :=
  match takeOperand 1 ws with
  | .error e => .error e
  | .ok (a, ws1) =>
    match takeOperand 2 ws1 with
    | .error e => .error e
    | .ok (b, ws2) =>
      match takeOperand 3 ws2 with
      | .error e => .error e
      | .ok (c, ws3) => .ok (mk a b c, ws3)

/-- The decoder (R61, R64, R73): the instruction that the words begin with, and the words after it.
All 16 bits of the opcode word select the opcode. No operand word of an unknown opcode is read (R69). -/
def decodeWords : List Word → Except DecodeReject (Instr × List Word)
  | [] => .error (.missingWord 0)
  | w :: rest =>
    match w.toNat with
    | 0 => .ok (.halt, rest)
    | 1 => decodeF2 .set rest
    | 2 => decodeF1 .push rest
    | 3 => decodeF1 .pop rest
    | 4 => decodeF3 .eq rest
    | 5 => decodeF3 .gt rest
    | 6 => decodeF1 .jmp rest
    | 7 => decodeF2 .jt rest
    | 8 => decodeF2 .jf rest
    | 9 => decodeF3 .add rest
    | 10 => decodeF3 .mult rest
    | 11 => decodeF3 .mod rest
    | 12 => decodeF3 .and rest
    | 13 => decodeF3 .or rest
    | 14 => decodeF2 .not rest
    | 15 => decodeF2 .rmem rest
    | 16 => decodeF2 .wmem rest
    | 17 => decodeF1 .call rest
    | 18 => .ok (.ret, rest)
    | 19 => decodeF1 .out rest
    | 20 => decodeF1 .inp rest
    | 21 => .ok (.noop, rest)
    | _ => .error (.invalidOpcode w)

/-- The opcode word of an instruction (R64). -/
def Instr.opcode : Instr → Word
  | .halt => 0#16
  | .set _ _ => 1#16
  | .push _ => 2#16
  | .pop _ => 3#16
  | .eq _ _ _ => 4#16
  | .gt _ _ _ => 5#16
  | .jmp _ => 6#16
  | .jt _ _ => 7#16
  | .jf _ _ => 8#16
  | .add _ _ _ => 9#16
  | .mult _ _ _ => 10#16
  | .mod _ _ _ => 11#16
  | .and _ _ _ => 12#16
  | .or _ _ _ => 13#16
  | .not _ _ => 14#16
  | .rmem _ _ => 15#16
  | .wmem _ _ => 16#16
  | .call _ => 17#16
  | .ret => 18#16
  | .out _ => 19#16
  | .inp _ => 20#16
  | .noop => 21#16

/-- The operand word of an operand: a literal is itself, register `i` is `32768 + i` (R20, R66, R67). -/
def Operand.word : Operand → Word
  | .lit v => v
  | .reg i => BitVec.ofNat 16 (32768 + i.val)

/-- The encoder: the opcode word, then one word an operand, in order (R60). -/
def encode (i : Instr) : List Word := i.opcode :: i.operands.map Operand.word

/-- Up to four words from one number, the first word in its lowest 16 bits, and the bits from `nbits` up zero:
how spec/opcode_table.json numbers an instruction's bits. -/
def tableWords (nbits w : Nat) : List Word :=
  (List.range 4).map fun k => BitVec.ofNat 16 ((w % 2 ^ nbits) / 2 ^ (16 * k))

/-- The instruction the decoder reads from the words of one number of the opcode table. -/
def decodeTableWord (nbits w : Nat) : Option Instr :=
  match decodeWords (tableWords nbits w) with
  | .ok (i, _) => some i
  | .error _ => none

end Sys2Proof
end

