-- ==== Sys2Proof/Machine/Fetch.lean ====
section
/-! DEFINITION. Fetch and decode from memory (R73, R81): the words at an address, through the memory interface, and
the decoder's rejections as the faults they raise. Memory is read afresh each time (R54). -/

namespace Sys2Proof.Machine

/-- The words at `a` and after it, at most `n`, up to the last cell. A read past it ends them: no address wraps to 0,
since an address above 32767 is never passed (R73). -/
def wordsFrom (m : Memory) (a : Word) : Nat → List Word
  | 0 => []
  | n + 1 =>
    match memRead m a with
    | .ok w => w :: wordsFrom m (a + 1#16) n
    | .error _ => []

/-- What the decoder is given at `p`: an instruction is at most 4 words long (R62). It uses no word past the
instruction's own, and a read has no side effect (R42; log entry 10). -/
def fetchWords (m : Memory) (p : Word) : List Word := wordsFrom m p 4

/-- The fault a rejection at `p` raises (R69, R70, R73, R81). -/
def DecodeReject.toFault (p : Word) : DecodeReject → FaultKind
  | .missingWord k => .memoryOutOfBounds .read (p + BitVec.ofNat 16 k) memAddrMax
  | .invalidOpcode w => .invalidOpcode w
  | .invalidOperand w => .invalidOperand w

/-- `decode(M, p)` (R73): the instruction at `p`, or the first fault in the order of R202. -/
def fetchDecode (m : Memory) (p : Word) : Except FaultKind Instr :=
  match decodeWords (fetchWords m p) with
  | .ok (i, _) => .ok i
  | .error e => .error (DecodeReject.toFault p e)

end Sys2Proof.Machine
end

