-- ==== Sys2Proof/Machine/Cycle.lean ====
section
/-! DEFINITION. The execution cycle of a running machine (40_execution_cycle.md). -/

namespace Sys2Proof.Machine

/-- An In that holds goes on (R89). Otherwise the instruction at `ip` is decoded (R81) and executed; each meaning
makes the `ip` update of R82 itself. A decode fault leaves `ip` where it was and has no other effect (R81). -/
def stepRunning (s : State) : Outcome :=
  match s.inWait with
  | some w => resumeIn w s
  | none =>
    match fetchDecode s.mem s.ip with
    | .ok i => exec i s
    | .error k => .next (s.raise s.ip k)

end Sys2Proof.Machine
end

