-- ==== Sys2Proof/Machine/Step.lean ====
section
/-! DEFINITION. One step (R80 to R83). -/

namespace Sys2Proof.Machine

/-- One step of the machine: a halted or faulted machine has none (R80, R88). -/
def step (s : State) : Host.Outcome State Fault Refusal :=
  match s.runState with
  | .halted => .fault .noStepHalted
  | .faulted => .fault .noStepFaulted
  | .running => stepRunning s

/-- `s` with the words of one number of the opcode table stored where the next fetch reads: the four cells at `ip`.
It stands for the host's load of that instruction (R232; log entry 8). -/
def State.withFetchWord (s : State) (nbits w : Nat) : State :=
  s.setMem (s.mem.storeWords s.ip.toNat (tableWords nbits w))

end Sys2Proof.Machine
end

