-- ==== Sys2Proof/Machine/HostSide.lean ====
section
/-! DEFINITION. The host's side of CORE (R220): loading an image, starting a run, answering an In and observing. None
of it is a step. -/

namespace Sys2Proof.Machine

/-- A pair of image bytes as a word, the low byte first (R45, R232). -/
def wordOfBytes (b0 b1 : Byte) : Word := BitVec.ofNat 16 (b1.toNat * 256 + b0.toNat)

/-- The words of an image that is supplied as bytes: non-overlapping pairs, a trailing odd byte dropped (R232 (1)). -/
def wordsOfBytes : List Byte → List Word
  | b0 :: b1 :: rest => wordOfBytes b0 b1 :: wordsOfBytes rest
  | _ => []

/-- The image as the host's stream gives it: its words, and whether reading it fails after them (R232 (2)). -/
structure ImageStream where
  words : List Word
  fails : Bool
  deriving DecidableEq, Repr

/-- The load from cell `a` on (R232): each word goes to the next cell. The first word past the last cell faults as
the bounds-checked write at 32768 (3), and a failing stream faults with `LoadError` (2). A load fault has
`fault_ip = 0`; the words before it are in memory (log entry 7). -/
def loadFrom (a : Nat) (fails : Bool) : List Word → State → State
  | [], s => if fails then s.raise 0#16 .loadError else s
  | w :: ws, s =>
    match memWrite s.mem (BitVec.ofNat 16 a) w with
    | .ok m => loadFrom (a + 1) fails ws (s.setMem m)
    | .error k => s.raise 0#16 k

/-- The host's load of an image (R232). -/
def State.load (s : State) (image : ImageStream) : State := loadFrom 0 image.fails image.words s

/-- A new run of a machine (R231, R233): the reset state, then the load. The machine's parameters and the answers the
host will give are the host's to choose (R5, R220). -/
def State.boot (cfg : Config) (image : ImageStream) (answers : List InputAnswer) : State :=
  State.load { State.reset with cfg := cfg, input := answers } image

/-- The host gives one more answer (R220). -/
def State.hostAnswer (s : State) (r : InputAnswer) : State := s.setInput (s.input ++ [r])

/-- What the host sees (R206, R220): `halted`, the whole fault register and the output. -/
structure Observation where
  halted : Bool
  fault  : Option FaultRecord
  output : List Byte
  deriving DecidableEq, Repr

/-- The host's view of a state. -/
def State.observe (s : State) : Observation :=
  { halted := s.halted, fault := s.fault, output := s.output }

end Sys2Proof.Machine
end

