-- ==== Sys2Proof/Safety.lean ====
section
/-! DEFINITION. The terms in which claims speak of the machine: what a step leaves unchanged, the invariant that every
step keeps, and how a run ends. -/

namespace Sys2Proof.Machine

/-- The parts of the state that a statement can name as changed: one register, one memory cell, or a whole field. -/
inductive Part where
  | reg (i : RegId)
  | stack
  | ip
  | halted
  | fault
  | cell (a : Nat)
  | inWait
  | input
  | output
  deriving DecidableEq, Repr

/-- `t` has every part of `s` but those listed. Memory is compared by what each address reads as. The machine's
parameters are compared always. -/
def SameExcept (changed : List Part) (s t : State) : Prop :=
  (∀ i, Part.reg i ∉ changed → t.reg i = s.reg i) ∧
  (Part.stack ∉ changed → t.stack = s.stack) ∧
  (Part.ip ∉ changed → t.ip = s.ip) ∧
  (Part.halted ∉ changed → t.halted = s.halted) ∧
  (Part.fault ∉ changed → t.fault = s.fault) ∧
  (∀ a, Part.cell a ∉ changed → t.mem.read a = s.mem.read a) ∧
  (Part.inWait ∉ changed → t.inWait = s.inWait) ∧
  (Part.input ∉ changed → t.input = s.input) ∧
  (Part.output ∉ changed → t.output = s.output) ∧
  t.cfg = s.cfg

/-- The fault register of `t` names the kind `k`. -/
def Faulted (k : FaultKind) (t : State) : Prop := t.fault.map FaultRecord.kind = some k

/-- CORE is running and holds in an In that the host has not answered (R34, R181). -/
def State.blocked (s : State) : Bool :=
  decide (s.runState = .running) && s.inWait.isSome && s.input.isEmpty

/-- `halted` and a fault never hold together (R31). -/
def State.statusOk (s : State) : Bool := !(s.halted && s.fault.isSome)

/-- The capacity is positive where it is finite (D5), and it has room for `depth` entries. -/
def StackCapacity.admits (depth : Nat) : StackCapacity → Bool
  | .unbounded => true
  | .words n => decide (0 < n) && decide (depth ≤ n)

/-- The stack is within its capacity (R23, R24). -/
def State.stackOk (s : State) : Bool := StackCapacity.admits s.stack.length s.cfg.stackCapacity

/-- An In that holds is the two-word instruction just before `ip`, and the machine is running (R89). -/
def State.waitOk (s : State) : Bool :=
  match s.inWait with
  | none => true
  | some w =>
    !s.halted && s.fault.isNone && w.dest.wf && decide (w.opAddr.toNat ≤ 32766) &&
      decide (s.ip.toNat = w.opAddr.toNat + 2)

/-- The recorded `info` is one that the kind's cause can give (R200). -/
def FaultKind.infoOk (cfg : Config) : FaultKind → Bool
  | .memoryOutOfBounds _ addr max => decide (addr.toNat > 32767) && decide (max.toNat = 32767)
  | .invalidOperand w => decide (w.toNat ≥ 32776)
  | .invalidOpcode w => decide (w.toNat ≥ 22)
  | .invalidWrite v => decide (v.toNat ≤ 32767)
  | .stackOverflow d => decide (cfg.stackCapacity = .words d)
  | .stackUnderflow => true
  | .inputChannelClosed => true
  | .inputError => true
  | .loadError => true
  | .divisionByZero => true

/-- The fault register's content is consistent. -/
def State.faultOk (s : State) : Bool :=
  match s.fault with
  | none => true
  | some r => r.kind.infoOk s.cfg

/-- The invariant: memory in canonical form with no cell above 32767, the stack within its capacity, never halted and
faulted at once, a wait only while running and right after its In, and a fault register that its cause explains. -/
def State.inv (s : State) : Bool :=
  s.mem.wf && s.statusOk && s.stackOk && s.waitOk && s.faultOk

/-- `n` steps, or fewer where the machine has no step left (R88). -/
def runFor : Nat → State → State
  | 0, s => s
  | n + 1, s =>
    match step s with
    | .next t => runFor n t
    | .fault _ => s
    | .refused _ => s

/-- The run from `s` ends normally within `n` steps (R88). -/
def EndsNormally (n : Nat) (s : State) : Prop := (runFor n s).runState = .halted

/-- The run from `s` ends abnormally within `n` steps (R88). -/
def EndsAbnormally (n : Nat) (s : State) : Prop := (runFor n s).runState = .faulted

/-- A safe run: no fault is raised within `n` steps. -/
def SafeFor (n : Nat) (s : State) : Prop := (runFor n s).fault = none

end Sys2Proof.Machine
end

