-- ==== Sys2Proof/Certificates/Slice0/Obligations.lean ====
section
/-! DEFINITION. The statements about the model, from the numbered rules of spec/. The helpers come first: how words
encode an instruction, and the shapes that several statements share. A fault is seen in two ways: `Faulted k t` says
only that the kind `k` was raised, and the statements about the fault register itself (the spec's decision D8) say what
else it records. That the step which raises a fault answers a next state that holds it is how the model gives R204 its
place among the outcomes of a step (log entry 1). -/

open Sys2Proof Sys2Proof.Machine

namespace Sys2Proof.Claims

/-- The one word `n` is the instruction, whatever follows. -/
def Encodes0 (n : Nat) (i : Instr) : Prop :=
  ∀ rest, decodeWords (BitVec.ofNat 16 n :: rest) = .ok (i, rest)

/-- The opcode word `n` and one operand word are the instruction. -/
def Encodes1 (n : Nat) (mk : Operand → Instr) : Prop :=
  ∀ wa a rest, classify wa = .ok a → decodeWords (BitVec.ofNat 16 n :: wa :: rest) = .ok (mk a, rest)

/-- The opcode word `n` and two operand words, in order, are the instruction. -/
def Encodes2 (n : Nat) (mk : Operand → Operand → Instr) : Prop :=
  ∀ wa wb a b rest, classify wa = .ok a → classify wb = .ok b →
    decodeWords (BitVec.ofNat 16 n :: wa :: wb :: rest) = .ok (mk a b, rest)

/-- The opcode word `n` and three operand words, in order, are the instruction. -/
def Encodes3 (n : Nat) (mk : Operand → Operand → Operand → Instr) : Prop :=
  ∀ wa wb wc a b c rest, classify wa = .ok a → classify wb = .ok b → classify wc = .ok c →
    decodeWords (BitVec.ofNat 16 n :: wa :: wb :: wc :: rest) = .ok (mk a b c, rest)

/-- The length in words that R62's table gives an opcode. -/
def specLength (n : Nat) : Nat :=
  if n ∈ [0, 18, 21] then 1
  else if n ∈ [2, 3, 6, 17, 19, 20] then 2
  else if n ∈ [1, 7, 8, 14, 15, 16] then 3
  else 4

/-- The instruction completes: register `d` gets the number `v`, `ip` goes past `len` words, all else stays. -/
def WritesRegister (i : Instr) (s : State) (len : Nat) (d : RegId) (v : Nat) : Prop :=
  ∃ t, exec i s = .next t ∧ (t.reg d).toNat = v ∧ t.ip = s.ip + BitVec.ofNat 16 len ∧
    SameExcept [.reg d, .ip] s t

/-- The instruction raises `k` with no other effect than the `ip` update. -/
def OnlyFaults (i : Instr) (s : State) (len : Nat) (k : FaultKind) : Prop :=
  ∃ t, exec i s = .next t ∧ Faulted k t ∧ t.ip = s.ip + BitVec.ofNat 16 len ∧ SameExcept [.fault, .ip] s t

/-- The machine is running and no In holds: its next step fetches. -/
def Fetching (s : State) : Prop := s.runState = .running ∧ s.inWait = none

/-- The step raises `k` in decode: the fault register gets the kind and `ip`, and nothing else changes. -/
def StepOnlyFaults (s : State) (k : FaultKind) : Prop :=
  ∃ t, step s = .next t ∧ t.fault = some { kind := k, faultIp := s.ip } ∧ SameExcept [.fault] s t

/-- R87's multiplexer: the next `ip` of an instruction at `s.ip` that neither faults nor blocks. -/
def muxNextIp (i : Instr) (s : State) : Word :=
  match i with
  | .jmp a => s.getOp a
  | .call a => s.getOp a
  | .jt a b => if s.getOp a = 0#16 then s.ip + 3#16 else s.getOp b
  | .jf a b => if s.getOp a = 0#16 then s.getOp b else s.ip + 3#16
  | .ret => s.stack.getLast?.getD (s.ip + 1#16)
  | .halt | .noop => s.ip + 1#16
  | .push _ | .pop _ | .out _ | .inp _ => s.ip + 2#16
  | .set _ _ | .not _ _ | .rmem _ _ | .wmem _ _ => s.ip + 3#16
  | .eq _ _ _ | .gt _ _ _ | .add _ _ _ | .mult _ _ _ | .mod _ _ _ | .and _ _ _ | .or _ _ _ => s.ip + 4#16

/-- Every register and every stack entry lies in 0..32767. -/
def FifteenBit (s : State) : Prop :=
  (∀ i, (s.reg i).toNat ≤ 32767) ∧ ∀ v ∈ s.stack, v.toNat ≤ 32767

end Sys2Proof.Claims

open Sys2Proof.Claims

/-! ## Encoding -/

/-- R60 to R68, R73: decoding what was encoded gives the instruction back, and leaves the words after it. -/
def Obligations.DecodeInvertsEncode : Prop :=
  ∀ (i : Instr) (rest : List Word), i.wf = true → decodeWords (encode i ++ rest) = .ok (i, rest)

/-- R61, R66, R72: words that decode are the encoding of what they decode to, so each sequence of words has one
meaning and no word is ignored; and what is decoded is well formed. -/
def Obligations.DecodedWordsAreTheEncoding : Prop :=
  ∀ (ws rest : List Word) (i : Instr), decodeWords ws = .ok (i, rest) → ws = encode i ++ rest ∧ i.wf = true

/-- R65: the source's own encoded examples, word by word. -/
def Obligations.SourceExamplesDecode : Prop :=
  decodeWords [0#16] = .ok (.halt, []) ∧
  decodeWords [9, 32768, 32769, 4, 19, 32768] = .ok (.add (.reg 0) (.reg 1) (.lit 4), [19, 32768]) ∧
  decodeWords [19, 32768] = .ok (.out (.reg 0), []) ∧
  decodeWords [19, 65, 21, 0] = .ok (.out (.lit 65), [21, 0]) ∧
  decodeWords [21, 0] = .ok (.noop, [0])

/-- R66: every raw operand word is a literal, a register or invalid, by its range. -/
def Obligations.OperandWordClassification : Prop :=
  ∀ w : Word,
    (w.toNat ≤ 32767 → classify w = .ok (.lit w)) ∧
    (∀ i : RegId, w.toNat = 32768 + i.val → classify w = .ok (.reg i)) ∧
    (32776 ≤ w.toNat → classify w = .error (.invalidOperand w))

/-- R62: the opcode alone fixes the length, and the operand words follow the opcode word in order. -/
def Obligations.OpcodeFixesLength : Prop :=
  ∀ (w : Word) (ws rest : List Word) (i : Instr), decodeWords (w :: ws) = .ok (i, rest) →
    w.toNat ≤ 21 ∧ i.length = specLength w.toNat ∧ rest = (w :: ws).drop (specLength w.toNat) ∧
      i.operands.map Operand.word = ws.take (specLength w.toNat - 1)

/-- R69: an opcode word outside 0..21 is rejected whatever follows it, and raises `InvalidOpcode`. -/
def Obligations.UnknownOpcodeIsInvalid : Prop :=
  (∀ (w : Word) (rest : List Word), 22 ≤ w.toNat → decodeWords (w :: rest) = .error (.invalidOpcode w)) ∧
  ∀ s : State, Fetching s → s.ip.toNat ≤ 32767 → 22 ≤ (s.mem.read s.ip.toNat).toNat →
    ∃ t, step s = .next t ∧ Faulted (.invalidOpcode (s.mem.read s.ip.toNat)) t

/-- R68, R70: operand words are classified in order, and the first invalid one ends decoding, whatever follows. -/
def Obligations.FirstInvalidOperandEndsDecoding : Prop :=
  ∀ (n wa wb wc : Word) (a b : Operand) (rest : List Word), n.toNat ≤ 21 →
    (2 ≤ specLength n.toNat → 32776 ≤ wa.toNat → decodeWords (n :: wa :: rest) = .error (.invalidOperand wa)) ∧
    (3 ≤ specLength n.toNat → classify wa = .ok a → 32776 ≤ wb.toNat →
      decodeWords (n :: wa :: wb :: rest) = .error (.invalidOperand wb)) ∧
    (4 ≤ specLength n.toNat → classify wa = .ok a → classify wb = .ok b → 32776 ≤ wc.toNat →
      decodeWords (n :: wa :: wb :: wc :: rest) = .error (.invalidOperand wc))

/-! ## The step -/

/-- R81, R82: a step runs the instruction decoded at `ip`. The model's `exec` makes the `ip` update itself (log entry 9),
so nothing stands around it. -/
def Obligations.StepRunsDecodedInstruction : Prop :=
  ∀ (s : State) (i : Instr) (rest : List Word), Fetching s → decodeWords (fetchWords s.mem s.ip) = .ok (i, rest) →
    step s = exec i s

/-- What the decoder is given: word `k` fetched at `p` is the cell at `p + k`, for the first four words up to the last
cell, and no word past it (R40, R42, R62, R73). -/
def Obligations.FetchedWordsAreTheCells : Prop :=
  ∀ (m : Memory) (p : Word) (k : Nat),
    (fetchWords m p)[k]? = if k < 4 ∧ p.toNat + k ≤ 32767 then some (m.read (p.toNat + k)) else none

/-- R80: a halted or faulted machine has no step. That the model's step stops there, and the names under which it stops,
are the model's (log entry 1, DEDUCED). -/
def Obligations.HaltedOrFaultedHasNoStep : Prop :=
  ∀ s : State, s.halted = true ∨ s.fault ≠ none →
    (∀ t, step s ≠ .next t) ∧ (step s = .fault .noStepHalted ∨ step s = .fault .noStepFaulted)

/-- R202 (1) to (3), R81, with R73's addresses (the spec's decisions D7, D8, D9): the first decode fault in order is
the one reported, with `fault_ip = ip`, and it has no other effect. -/
def Obligations.DecodeFaultsInOrder : Prop :=
  ∀ s : State, Fetching s →
    (32767 < s.ip.toNat → StepOnlyFaults s (.memoryOutOfBounds .read s.ip 32767#16)) ∧
    (s.ip.toNat ≤ 32767 → 22 ≤ (s.mem.read s.ip.toNat).toNat →
      StepOnlyFaults s (.invalidOpcode (s.mem.read s.ip.toNat))) ∧
    (s.ip.toNat ≤ 32767 → (s.mem.read s.ip.toNat).toNat ≤ 21 →
      ∀ k : Nat, 1 ≤ k → k < specLength (s.mem.read s.ip.toNat).toNat →
        (∀ j : Nat, 1 ≤ j → j < k → s.ip.toNat + j ≤ 32767 ∧ (s.mem.read (s.ip.toNat + j)).toNat ≤ 32775) →
        (32767 < s.ip.toNat + k →
          StepOnlyFaults s (.memoryOutOfBounds .read (BitVec.ofNat 16 (s.ip.toNat + k)) 32767#16)) ∧
        (s.ip.toNat + k ≤ 32767 → 32776 ≤ (s.mem.read (s.ip.toNat + k)).toNat →
          StepOnlyFaults s (.invalidOperand (s.mem.read (s.ip.toNat + k)))))

/-- R90: decoding depends on the instruction's own words only. -/
def Obligations.DecodingReadsOnlyItsWords : Prop :=
  ∀ (m m' : Memory) (p : Word) (i : Instr), fetchDecode m p = .ok i →
    p.toNat + i.length ≤ 32768 ∧
    ((∀ k, k < i.length → m'.read (p.toNat + k) = m.read (p.toNat + k)) → fetchDecode m' p = .ok i)

/-- R87: the next `ip` of an instruction that neither faults nor blocks is the multiplexer's. -/
def Obligations.NextIpIsTheMultiplexers : Prop :=
  ∀ (i : Instr) (s t : State), exec i s = .next t → t.fault = none → t.inWait = none →
    t.ip = muxNextIp i s

/-- R80, R210, R211: a running machine that does not hold in an In always has a next state, whatever memory holds: no
instruction and no operand makes the model stop. Two of these next states are the model's, not the spec's: for a fault,
which the spec calls terminal, the state that holds it (log entry 1, DEDUCED), and for an In about to execute with no
answer there, where the spec holds in that step (R88, R181, D11), the state of the wait (log entry 2, DEDUCED). -/
def Obligations.RunningMachineAlwaysSteps : Prop :=
  ∀ s : State, s.runState = .running → s.blocked = false → ∃ t, step s = .next t

/-- R201, R204 (decision D8): a fault of a step records the address of that instruction's opcode word, for a decode
fault, an execute fault and a fault of an In that held (the wait that keeps the address: log entry 2, DEDUCED). -/
def Obligations.FaultRecordHoldsOpcodeAddress : Prop :=
  ∀ (s t : State) (r : FaultRecord), step s = .next t → t.fault = some r →
    (s.inWait = none → r.faultIp = s.ip) ∧ (∀ w, s.inWait = some w → r.faultIp = w.opAddr)

/-! ## Machine control -/

/-- R100. -/
def Obligations.HaltStopsTheMachine : Prop :=
  Encodes0 0 .halt ∧
  (∀ s, ∃ t, exec .halt s = .next t ∧ t.halted = true ∧ t.ip = s.ip + 1#16 ∧ SameExcept [.halted, .ip] s t) ∧
  (∀ s t, exec .halt s = .next t → ∀ u, step t ≠ .next u) ∧
  (∀ s, Fetching s → s.ip.toNat ≤ 32767 → s.mem.read s.ip.toNat = 0#16 → step s = exec .halt s) ∧
  (∀ s, Fetching s → 32767 < s.ip.toNat →
    ∃ t, step s = .next t ∧ Faulted (.memoryOutOfBounds .read s.ip 32767#16) t)

/-- R101. -/
def Obligations.NoopOnlyAdvances : Prop :=
  Encodes0 21 .noop ∧
  (∀ s, ∃ t, exec .noop s = .next t ∧ t.ip = s.ip + 1#16 ∧ SameExcept [.ip] s t) ∧
  (∀ s, Fetching s → s.ip.toNat ≤ 32767 → s.mem.read s.ip.toNat = 21#16 → step s = exec .noop s) ∧
  (∀ s, Fetching s → 32767 < s.ip.toNat →
    ∃ t, step s = .next t ∧ Faulted (.memoryOutOfBounds .read s.ip 32767#16) t)

/-! ## Register and stack moves -/

/-- R110. -/
def Obligations.SetCopiesItsSource : Prop :=
  Encodes2 1 .set ∧
  (∀ d b s, WritesRegister (.set (.reg d) b) s 3 d (s.getOp b).toNat) ∧
  (∀ l b s, OnlyFaults (.set (.lit l) b) s 3 (.invalidWrite l))

/-- R111. -/
def Obligations.PushAppendsItsSource : Prop :=
  Encodes1 2 .push ∧
  (∀ a s, (∀ n, s.cfg.stackCapacity = .words n → s.stack.length < n) →
    ∃ t, exec (.push a) s = .next t ∧ t.stack = s.stack ++ [s.getOp a] ∧ t.ip = s.ip + 2#16 ∧
      SameExcept [.stack, .ip] s t) ∧
  (∀ a s, s.cfg.stackCapacity = .words s.stack.length →
    OnlyFaults (.push a) s 2 (.stackOverflow s.stack.length))

/-- R112. -/
def Obligations.PopTakesTheTop : Prop :=
  Encodes1 3 .pop ∧
  (∀ d s l v, s.stack = l ++ [v] →
    ∃ t, exec (.pop (.reg d)) s = .next t ∧ t.reg d = v ∧ t.stack = l ∧ t.ip = s.ip + 2#16 ∧
      SameExcept [.reg d, .stack, .ip] s t) ∧
  (∀ a s, s.stack = [] → OnlyFaults (.pop a) s 2 .stackUnderflow) ∧
  (∀ x s l v, s.stack = l ++ [v] →
    ∃ t, exec (.pop (.lit x)) s = .next t ∧ Faulted (.invalidWrite x) t ∧ t.stack = l ∧ t.ip = s.ip + 2#16 ∧
      SameExcept [.fault, .stack, .ip] s t)

/-! ## Comparisons -/

/-- R120, with the full 16-bit comparison of decision D24. -/
def Obligations.EqWritesZeroOrOne : Prop :=
  Encodes3 4 .eq ∧
  (∀ d b c s, WritesRegister (.eq (.reg d) b c) s 4 d (if (s.getOp b).toNat = (s.getOp c).toNat then 1 else 0)) ∧
  (∀ l b c s, OnlyFaults (.eq (.lit l) b c) s 4 (.invalidWrite l))

/-- R121, with the unsigned 16-bit comparison of decision D24. -/
def Obligations.GtWritesZeroOrOne : Prop :=
  Encodes3 5 .gt ∧
  (∀ d b c s, WritesRegister (.gt (.reg d) b c) s 4 d (if (s.getOp c).toNat < (s.getOp b).toNat then 1 else 0)) ∧
  (∀ l b c s, OnlyFaults (.gt (.lit l) b c) s 4 (.invalidWrite l))

/-! ## Control transfer -/

/-- R130: the last clause is the corner case `jmp p` at `p`. -/
def Obligations.JmpGoesToItsTarget : Prop :=
  Encodes1 6 .jmp ∧
  (∀ a s, ∃ t, exec (.jmp a) s = .next t ∧ t.ip = s.getOp a ∧ SameExcept [.ip] s t) ∧
  (∀ s rest, Fetching s → decodeWords (fetchWords s.mem s.ip) = .ok (.jmp (.lit s.ip), rest) → step s = .next s)

/-- R131. -/
def Obligations.JtJumpsIfNonzero : Prop :=
  Encodes2 7 .jt ∧
  (∀ a b s, s.getOp a ≠ 0#16 → ∃ t, exec (.jt a b) s = .next t ∧ t.ip = s.getOp b ∧ SameExcept [.ip] s t) ∧
  (∀ a b s, s.getOp a = 0#16 → ∃ t, exec (.jt a b) s = .next t ∧ t.ip = s.ip + 3#16 ∧ SameExcept [.ip] s t)

/-- R132: the last clause is that the jump is taken exactly when Jt's is not. -/
def Obligations.JfJumpsIfZero : Prop :=
  Encodes2 8 .jf ∧
  (∀ a b s, s.getOp a = 0#16 → ∃ t, exec (.jf a b) s = .next t ∧ t.ip = s.getOp b ∧ SameExcept [.ip] s t) ∧
  (∀ a b s, s.getOp a ≠ 0#16 → ∃ t, exec (.jf a b) s = .next t ∧ t.ip = s.ip + 3#16 ∧ SameExcept [.ip] s t) ∧
  (∀ a b s t u, exec (.jt a b) s = .next t → exec (.jf a b) s = .next u →
    (t.ip = s.getOp b ∧ u.ip = s.ip + 3#16) ∨ (t.ip = s.ip + 3#16 ∧ u.ip = s.getOp b))

/-- R133: the last clause is the round trip, for any state `v` in which the stack is as the Call left it. -/
def Obligations.CallPushesReturnAddress : Prop :=
  Encodes1 17 .call ∧
  (∀ a s, (∀ n, s.cfg.stackCapacity = .words n → s.stack.length < n) →
    ∃ t, exec (.call a) s = .next t ∧ t.stack = s.stack ++ [s.ip + 2#16] ∧ t.ip = s.getOp a ∧
      SameExcept [.stack, .ip] s t) ∧
  (∀ a s, s.cfg.stackCapacity = .words s.stack.length →
    OnlyFaults (.call a) s 2 (.stackOverflow s.stack.length)) ∧
  (∀ a s t v, exec (.call a) s = .next t → s.fault = none → t.fault = none → v.stack = t.stack →
    ∃ u, exec .ret v = .next u ∧ u.ip = s.ip + 2#16 ∧ u.stack = s.stack)

/-- R134, with `ip` after a halting Ret as decision D15 has it. -/
def Obligations.RetReturnsOrHalts : Prop :=
  Encodes0 18 .ret ∧
  (∀ s l v, s.stack = l ++ [v] →
    ∃ t, exec .ret s = .next t ∧ t.ip = v ∧ t.stack = l ∧ SameExcept [.stack, .ip] s t) ∧
  (∀ s, s.stack = [] →
    ∃ t, exec .ret s = .next t ∧ t.halted = true ∧ t.ip = s.ip + 1#16 ∧ SameExcept [.halted, .ip] s t)

/-! ## Arithmetic and logic -/

/-- R150. -/
def Obligations.AddWritesSumModulo : Prop :=
  Encodes3 9 .add ∧
  (∀ d b c s, WritesRegister (.add (.reg d) b c) s 4 d (((s.getOp b).toNat + (s.getOp c).toNat) % 32768)) ∧
  (∀ l b c s, OnlyFaults (.add (.lit l) b c) s 4 (.invalidWrite l))

/-- R151. -/
def Obligations.MultWritesProductModulo : Prop :=
  Encodes3 10 .mult ∧
  (∀ d b c s, WritesRegister (.mult (.reg d) b c) s 4 d (((s.getOp b).toNat * (s.getOp c).toNat) % 32768)) ∧
  (∀ l b c s, OnlyFaults (.mult (.lit l) b c) s 4 (.invalidWrite l))

/-- R152, with the zero divisor's fault of decision D3, which comes before `InvalidWrite`. -/
def Obligations.ModWritesRemainder : Prop :=
  Encodes3 11 .mod ∧
  (∀ d b c s, s.getOp c ≠ 0#16 →
    WritesRegister (.mod (.reg d) b c) s 4 d ((s.getOp b).toNat % (s.getOp c).toNat)) ∧
  (∀ a b c s, s.getOp c = 0#16 → OnlyFaults (.mod a b c) s 4 .divisionByZero) ∧
  (∀ l b c s, s.getOp c ≠ 0#16 → OnlyFaults (.mod (.lit l) b c) s 4 (.invalidWrite l))

/-- R153. -/
def Obligations.AndWritesBitwiseAnd : Prop :=
  Encodes3 12 .and ∧
  (∀ d b c s, WritesRegister (.and (.reg d) b c) s 4 d ((s.getOp b).toNat &&& (s.getOp c).toNat)) ∧
  (∀ l b c s, OnlyFaults (.and (.lit l) b c) s 4 (.invalidWrite l))

/-- R154. -/
def Obligations.OrWritesBitwiseOr : Prop :=
  Encodes3 13 .or ∧
  (∀ d b c s, WritesRegister (.or (.reg d) b c) s 4 d ((s.getOp b).toNat ||| (s.getOp c).toNat)) ∧
  (∀ l b c s, OnlyFaults (.or (.lit l) b c) s 4 (.invalidWrite l))

/-- R155: the value is R155's own number, `32767 - vb[14:0]`. -/
def Obligations.NotWritesComplement : Prop :=
  Encodes2 14 .not ∧
  (∀ d b s, WritesRegister (.not (.reg d) b) s 3 d (32767 - (s.getOp b).toNat % 32768)) ∧
  (∀ l b s, OnlyFaults (.not (.lit l) b) s 3 (.invalidWrite l))

/-- R156 (2), (3): Add, Mult and Not always write a value in 0..32767; Mod, And and Or do where both inputs lie there;
Eq and Gt write 0 or 1. -/
def Obligations.ResultsStayInRange : Prop :=
  ∀ (s t : State) (d : RegId) (b c : Operand),
    (exec (.add (.reg d) b c) s = .next t → (t.reg d).toNat ≤ 32767) ∧
    (exec (.mult (.reg d) b c) s = .next t → (t.reg d).toNat ≤ 32767) ∧
    (exec (.not (.reg d) b) s = .next t → (t.reg d).toNat ≤ 32767) ∧
    (exec (.eq (.reg d) b c) s = .next t → (t.reg d).toNat ≤ 1) ∧
    (exec (.gt (.reg d) b c) s = .next t → (t.reg d).toNat ≤ 1) ∧
    ((s.getOp b).toNat ≤ 32767 → (s.getOp c).toNat ≤ 32767 →
      (exec (.mod (.reg d) b c) s = .next t → s.getOp c ≠ 0#16 → (t.reg d).toNat ≤ 32767) ∧
      (exec (.and (.reg d) b c) s = .next t → (t.reg d).toNat ≤ 32767) ∧
      (exec (.or (.reg d) b c) s = .next t → (t.reg d).toNat ≤ 32767))

/-! ## Memory access -/

/-- R170: the word is copied with all 16 bits (decision D2); a memory fault comes before `InvalidWrite`. -/
def Obligations.RMemCopiesTheCell : Prop :=
  Encodes2 15 .rmem ∧
  (∀ d b s, (s.getOp b).toNat ≤ 32767 →
    WritesRegister (.rmem (.reg d) b) s 3 d (s.mem.read (s.getOp b).toNat).toNat) ∧
  (∀ a b s, 32767 < (s.getOp b).toNat →
    OnlyFaults (.rmem a b) s 3 (.memoryOutOfBounds .read (s.getOp b) 32767#16)) ∧
  (∀ l b s, (s.getOp b).toNat ≤ 32767 → OnlyFaults (.rmem (.lit l) b) s 3 (.invalidWrite l))

/-- R171: the stored word, every other word unchanged, and no `InvalidWrite` in any form. The premise on memory is the
part of the invariant that `StepKeepsInvariant` keeps: the model's canonical form (log entry 6, DESIGN CHOICE). -/
def Obligations.WMemStoresTheWord : Prop :=
  Encodes2 16 .wmem ∧
  (∀ a b s, s.mem.wf = true → (s.getOp a).toNat ≤ 32767 →
    ∃ t, exec (.wmem a b) s = .next t ∧ t.mem.read (s.getOp a).toNat = s.getOp b ∧ t.ip = s.ip + 3#16 ∧
      SameExcept [.cell (s.getOp a).toNat, .ip] s t) ∧
  (∀ a b s, 32767 < (s.getOp a).toNat →
    OnlyFaults (.wmem a b) s 3 (.memoryOutOfBounds .write (s.getOp a) 32767#16)) ∧
  (∀ a b s t l, s.fault = none → exec (.wmem a b) s = .next t → ¬ Faulted (.invalidWrite l) t)

/-- R42, R43: the memory interface. That a write keeps the canonical form, and that memory is taken in that form, are the
model's (log entry 6, DESIGN CHOICE). -/
def Obligations.MemoryInterfaceChecksBounds : Prop :=
  ∀ (m : Memory) (addr v : Word),
    (addr.toNat ≤ 32767 → memRead m addr = .ok (m.read addr.toNat)) ∧
    (32767 < addr.toNat → memRead m addr = .error (.memoryOutOfBounds .read addr 32767#16)) ∧
    (addr.toNat ≤ 32767 → m.wf = true →
      ∃ m', memWrite m addr v = .ok m' ∧ m'.wf = true ∧
        ∀ x, m'.read x = if x = addr.toNat then v else m.read x) ∧
    (32767 < addr.toNat → memWrite m addr v = .error (.memoryOutOfBounds .write addr 32767#16))

/-- The model's canonical form (log entry 6): two memories in it that read alike at every address of R40 are equal. -/
def Obligations.MemoryFormIsCanonical : Prop :=
  ∀ m n : Memory, m.wf = true → n.wf = true → (∀ a, a ≤ 32767 → m.read a = n.read a) → m = n

/-- R54, R235: the word a WMem stores is the one the next fetch at its address reads. -/
def Obligations.WrittenCodeIsFetched : Prop :=
  ∀ (s t : State) (a b : Operand) (p : Word) (k : Nat), s.mem.wf = true →
    exec (.wmem a b) s = .next t → p.toNat + k ≤ 32767 → k < 4 → (s.getOp a).toNat = p.toNat + k →
    (fetchWords t.mem p)[k]? = some (s.getOp b)

/-! ## Operands -/

/-- R84, R85: `get` and `set`. -/
def Obligations.OperandAccess : Prop :=
  (∀ (s : State) (v : Word), s.getOp (.lit v) = v) ∧
  (∀ (s : State) (i : RegId), s.getOp (.reg i) = s.reg i) ∧
  (∀ (s : State) (p : Word) (i : RegId) (v : Word),
    (s.setOp p (.reg i) v).reg i = v ∧ SameExcept [.reg i] s (s.setOp p (.reg i) v)) ∧
  (∀ (s : State) (p l v : Word),
    Faulted (.invalidWrite l) (s.setOp p (.lit l) v) ∧ SameExcept [.fault] s (s.setOp p (.lit l) v))

/-! ## Byte input and output -/

/-- R180, with a host that always accepts (decision D12). -/
def Obligations.OutSendsTheLowByte : Prop :=
  Encodes1 19 .out ∧
  (∀ a s, ∃ t, exec (.out a) s = .next t ∧
    (∃ byte : Byte, byte.toNat = (s.getOp a).toNat % 256 ∧ t.output = s.output ++ [byte]) ∧
    t.ip = s.ip + 2#16 ∧ SameExcept [.output, .ip] s t)

/-- R181, where the host has answered (decision D11): one answer is taken, and the byte is stored or the fault raised. -/
def Obligations.InTakesOneAnswer : Prop :=
  Encodes1 20 .inp ∧
  (∀ d s b rest, s.input = .byte b :: rest →
    ∃ t, exec (.inp (.reg d)) s = .next t ∧ (t.reg d).toNat = b.toNat ∧ t.input = rest ∧ t.ip = s.ip + 2#16 ∧
      SameExcept [.reg d, .input, .ip] s t) ∧
  (∀ l s b rest, s.input = .byte b :: rest →
    ∃ t, exec (.inp (.lit l)) s = .next t ∧ Faulted (.invalidWrite l) t ∧ t.input = rest ∧ t.ip = s.ip + 2#16 ∧
      SameExcept [.fault, .input, .ip] s t) ∧
  (∀ a s rest, s.input = .closed :: rest →
    ∃ t, exec (.inp a) s = .next t ∧ Faulted .inputChannelClosed t ∧ t.input = rest ∧ t.ip = s.ip + 2#16 ∧
      SameExcept [.fault, .input, .ip] s t) ∧
  (∀ a s rest, s.input = .error :: rest →
    ∃ t, exec (.inp a) s = .next t ∧ Faulted .inputError t ∧ t.input = rest ∧ t.ip = s.ip + 2#16 ∧
      SameExcept [.fault, .input, .ip] s t)

/-- R34, R89, R181, R216: with no answer the machine holds with its `ip` update done and nothing else. It has no step
until the host answers; then the step is the one it would have made had the answer been there. The wait as a state of
its own is the model's (log entry 2). -/
def Obligations.InHoldsUntilAnswered : Prop :=
  ∀ (a : Operand) (s : State), s.input = [] → s.inWait = none →
    ∃ t, exec (.inp a) s = .next t ∧ t.ip = s.ip + 2#16 ∧ SameExcept [.inWait, .ip] s t ∧
      (s.runState = .running →
        step t = .fault .inputNotAnswered ∧ ∀ r, step (t.hostAnswer r) = exec (.inp a) (s.hostAnswer r))

/-! ## The whole machine -/

/-- Every step keeps the invariant, from every state that meets it (R20 to R36, R89, R200). -/
def Obligations.StepKeepsInvariant : Prop :=
  ∀ s t : State, s.inv = true → step s = .next t → t.inv = true

/-- The invariant holds at reset. -/
def Obligations.ResetMeetsInvariant : Prop := State.reset.inv = true

/-- The invariant holds after every load of R232, whatever the image, for every capacity that decision D5 allows. -/
def Obligations.BootMeetsInvariant : Prop :=
  ∀ (cfg : Config) (image : ImageStream) (answers : List InputAnswer), cfg.stackCapacity ≠ .words 0 →
    (State.boot cfg image answers).inv = true

/-- R22, R230: every register is 0, and the machine runs from `ip = 0`, whose word the first step fetches. -/
def Obligations.ResetStartsAtZero : Prop :=
  (∀ i, State.reset.reg i = 0#16) ∧ State.reset.ip = 0#16 ∧ State.reset.runState = .running ∧
  ∀ (cfg : Config) (image : ImageStream) (answers : List InputAnswer),
    (State.boot cfg image answers).fault = none →
    (State.boot cfg image answers).ip = 0#16 ∧ (State.boot cfg image answers).runState = .running ∧
    ∀ i rest, decodeWords (fetchWords (State.boot cfg image answers).mem 0#16) = .ok (i, rest) →
      step (State.boot cfg image answers) = exec i (State.boot cfg image answers)

/-- R231 (decisions D14, D26): the rest of the reset state. That nothing was answered or sent (log entries 3, 4) and that
the capacity is the default (log entry 5) are the model's. -/
def Obligations.ResetLeavesNothingBehind : Prop :=
  State.reset.stack = [] ∧ State.reset.halted = false ∧ State.reset.fault = none ∧
  (∀ a, State.reset.mem.read a = 0#16) ∧ State.reset.inWait = none ∧
  State.reset.input = [] ∧ State.reset.output = [] ∧ State.reset.cfg.stackCapacity = .unbounded

/-- R20, R63, R86: a register other than the destination keeps its value, for every instruction. -/
def Obligations.OnlyTheDestinationChanges : Prop :=
  ∀ (i : Instr) (s t : State) (j : RegId), exec i s = .next t → i.dest ≠ some (.reg j) → t.reg j = s.reg j

/-- R36, R90, R172: no instruction but WMem changes memory, and WMem changes at most the cell it addresses. -/
def Obligations.OnlyWMemChangesMemory : Prop :=
  ∀ (i : Instr) (s t : State), s.mem.wf = true → exec i s = .next t →
    ∀ x, t.mem.read x = s.mem.read x ∨ ∃ a b, i = .wmem a b ∧ x = (s.getOp a).toNat ∧ x ≤ 32767

/-- R24, R25, R36: only Push and Call add a stack entry, one on top; only Pop and Ret take one, the top. -/
def Obligations.StackChangesOnlyAtTheTop : Prop :=
  ∀ (i : Instr) (s t : State), exec i s = .next t →
    t.stack = s.stack ∨
    (((∃ a, i = .push a) ∨ ∃ a, i = .call a) ∧ ∃ v, t.stack = s.stack ++ [v]) ∨
    (((∃ a, i = .pop a) ∨ i = .ret) ∧ ∃ v, s.stack = t.stack ++ [v])

/-- R29: the halted flag is set by Halt and by Ret on an empty stack, and by nothing else; no instruction clears it; a
halted machine has no step; reset leaves it false. -/
def Obligations.HaltedIsOneWay : Prop :=
  (∀ (i : Instr) (s t : State), exec i s = .next t →
    (t.halted = true ↔ s.halted = true ∨ i = .halt ∨ (i = .ret ∧ s.stack = []))) ∧
  (∀ s t : State, s.halted = true → step s ≠ .next t) ∧ State.reset.halted = false

/-- R180, R181, R182: only Out adds to the output, one byte a time; only In takes an answer, one at a time and in order. -/
def Obligations.OnlyOutAndInUseTheChannels : Prop :=
  ∀ (i : Instr) (s t : State), exec i s = .next t →
    (t.output = s.output ∨ ∃ a b, i = .out a ∧ t.output = s.output ++ [b]) ∧
    (t.input = s.input ∨ ∃ a r, i = .inp a ∧ s.input = r :: t.input)

/-- R180: what was sent stays sent; the output of a run only grows, for any number of steps. -/
def Obligations.OutputOnlyGrows : Prop :=
  ∀ (n : Nat) (s : State), ∃ sent, (runFor n s).output = s.output ++ sent

/-- R30, R31, R205: a run that ended keeps its state, and it never ends both ways. -/
def Obligations.EndedRunsStayEnded : Prop :=
  ∀ (m n : Nat) (s : State),
    (EndsNormally m s → runFor (m + n) s = runFor m s) ∧
    (EndsAbnormally m s → runFor (m + n) s = runFor m s) ∧
    (EndsNormally m s → ¬ EndsAbnormally n s)

/-- R21 (decision D2): a value above 32767 enters a register or the stack only from memory, through RMem, or as the
return address 32768 of a Call at 32766. -/
def Obligations.FifteenBitValuesPersist : Prop :=
  ∀ (i : Instr) (s t : State), i.wf = true → FifteenBit s → exec i s = .next t →
    (∀ a b, i = .rmem a b → (s.mem.read (s.getOp b).toNat).toNat ≤ 32767) →
    (∀ a, i = .call a → (s.ip + 2#16).toNat ≤ 32767) → FifteenBit t

/-! ## Faults and the host -/

/-- R200 (decision D4): the code of each kind, and 0 exactly while the fault register is empty. -/
def Obligations.FaultCodes : Prop :=
  (∀ access addr max, (FaultKind.memoryOutOfBounds access addr max).code = 1) ∧
  (∀ w, (FaultKind.invalidOperand w).code = 2) ∧ (∀ w, (FaultKind.invalidOpcode w).code = 3) ∧
  FaultKind.stackUnderflow.code = 4 ∧ (∀ l, (FaultKind.invalidWrite l).code = 5) ∧
  FaultKind.inputChannelClosed.code = 6 ∧ FaultKind.inputError.code = 7 ∧ FaultKind.loadError.code = 8 ∧
  FaultKind.divisionByZero.code = 9 ∧ (∀ d, (FaultKind.stackOverflow d).code = 10) ∧
  ∀ s : State, s.faultCode = 0 ↔ s.fault = none

/-- R232: an image that fits is in memory from address 0 on, every other cell is 0, and the load changes nothing else
of a reset machine. -/
def Obligations.LoadFillsFromZero : Prop :=
  ∀ (cfg : Config) (ws : List Word) (answers : List InputAnswer), ws.length ≤ 32768 →
    (∀ a, (State.boot cfg ⟨ws, false⟩ answers).mem.read a = ws.getD a 0#16) ∧
    (∀ i, (State.boot cfg ⟨ws, false⟩ answers).reg i = 0#16) ∧
    (State.boot cfg ⟨ws, false⟩ answers).stack = [] ∧ (State.boot cfg ⟨ws, false⟩ answers).ip = 0#16 ∧
    (State.boot cfg ⟨ws, false⟩ answers).halted = false ∧ (State.boot cfg ⟨ws, false⟩ answers).fault = none ∧
    (State.boot cfg ⟨ws, false⟩ answers).input = answers ∧ (State.boot cfg ⟨ws, false⟩ answers).output = []

/-- R232 (2), (3) (decision D10): a stream that cannot be fully read and an image that does not fit fault before the
first step, with `fault_ip = 0`, and no step is taken. That an image which does not fit faults as `MemoryOutOfBounds` even
where its stream would also fail to be read is the model's (log entry 7, DEDUCED): R232 does not say which comes first. -/
def Obligations.LoadFaultsBeforeTheFirstStep : Prop :=
  ∀ (cfg : Config) (ws : List Word) (fails : Bool) (answers : List InputAnswer),
    (32768 < ws.length →
      (State.boot cfg ⟨ws, fails⟩ answers).fault =
        some { kind := .memoryOutOfBounds .write 32768#16 32767#16, faultIp := 0#16 } ∧
      ∀ t, step (State.boot cfg ⟨ws, fails⟩ answers) ≠ .next t) ∧
    (ws.length ≤ 32768 →
      (State.boot cfg ⟨ws, true⟩ answers).fault = some { kind := .loadError, faultIp := 0#16 } ∧
      ∀ t, step (State.boot cfg ⟨ws, true⟩ answers) ≠ .next t)

/-- R45, R232 (1): word `k` of an image of bytes is bytes `2k` and `2k + 1`, low byte first, and a trailing odd byte is
dropped. -/
def Obligations.ImageBytesPairLowFirst : Prop :=
  ∀ bs : List Byte, (wordsOfBytes bs).length = bs.length / 2 ∧
    ∀ (k : Nat) (b0 b1 : Byte), bs[2 * k]? = some b0 → bs[2 * k + 1]? = some b1 →
      ∃ w, (wordsOfBytes bs)[k]? = some w ∧ w.toNat = b1.toNat * 256 + b0.toNat
end

