-- ==== Sys2Proof/Laws/Alu.lean ====
section
/-! SUPPORT. The value of each operation of the arithmetic logic unit, as a number. -/

namespace Sys2Proof.Machine

@[simp] theorem toNat_aluAdd (b c : Word) : (aluAdd b c).toNat = (b.toNat + c.toNat) % 32768 := by
  have := Nat.mod_lt (b.toNat + c.toNat) (show 0 < 32768 by decide)
  simp only [aluAdd, modValue, BitVec.toNat_ofNat]
  omega

@[simp] theorem toNat_aluMult (b c : Word) : (aluMult b c).toNat = (b.toNat * c.toNat) % 32768 := by
  have := Nat.mod_lt (b.toNat * c.toNat) (show 0 < 32768 by decide)
  simp only [aluMult, modValue, BitVec.toNat_ofNat]
  omega

/-- A nonzero divisor gives the unsigned remainder. -/
theorem aluMod_nonzero {b c : Word} (h : c ≠ 0#16) : ∃ v, aluMod b c = some v ∧ v.toNat = b.toNat % c.toNat := by
  refine ⟨_, if_neg h, ?_⟩
  have := Nat.mod_le b.toNat c.toNat
  have := b.isLt
  simp only [BitVec.toNat_ofNat]
  omega

@[simp] theorem toNat_aluAnd (b c : Word) : (aluAnd b c).toNat = b.toNat &&& c.toNat := rfl

@[simp] theorem toNat_aluOr (b c : Word) : (aluOr b c).toNat = b.toNat ||| c.toNat := rfl

/-- The complement in 15 bits is a subtraction (R155). -/
@[simp] theorem toNat_aluNot (b : Word) : (aluNot b).toNat = 32767 - b.toNat % 32768 := by
  have h1 : notMask.toNat = 2 ^ 15 - 1 := rfl
  have := b.isLt
  simp only [aluNot, BitVec.toNat_and, BitVec.toNat_not, h1, Nat.and_two_pow_sub_one_eq_mod]
  omega

@[simp] theorem toNat_truthWord (p : Bool) : (truthWord p).toNat = if p then 1 else 0 := by
  cases p <;> rfl

/-- Eq's result (R120). -/
@[simp] theorem toNat_aluEq (b c : Word) : (aluEq b c).toNat = if b.toNat = c.toNat then 1 else 0 := by
  simp [aluEq, ← BitVec.toNat_inj]

/-- Gt's result (R121). -/
@[simp] theorem toNat_aluGt (b c : Word) : (aluGt b c).toNat = if c.toNat < b.toNat then 1 else 0 := by
  simp [aluGt]

/-- What a conditional jump tests (R131). -/
@[simp] theorem isNonzero_eq_true (v : Word) : isNonzero v = true ↔ v ≠ 0#16 := by
  simp [isNonzero]

end Sys2Proof.Machine
end

