-- ==== Sys2Proof/Laws/Decode.lean ====
section
/-! SUPPORT. The laws of operand words, and what fetching can give. -/

namespace Sys2Proof

/-- Classifying the word of a well-formed operand gives the operand (R66). -/
theorem classify_word {op : Operand} (h : op.wf = true) : classify op.word = .ok op := by
  cases op with
  | lit v =>
    have hv : v.toNat ≤ 32767 := by simpa [Operand.wf] using h
    simp [classify, Operand.word, hv]
  | reg i =>
    have hi := i.isLt
    have e : (BitVec.ofNat 16 (32768 + i.val)).toNat = 32768 + i.val := by simp; omega
    have h1 : ¬ 32768 + i.val ≤ 32767 := by omega
    have h2 : 32768 + i.val ≤ 32775 := by omega
    simp [classify, Operand.word, e, h1, h2]

/-- A word that classifies as an operand is that operand's word, and the operand is well formed (R66). -/
theorem classify_ok {w : Word} {op : Operand} (h : classify w = .ok op) : op.word = w ∧ op.wf = true := by
  unfold classify at h
  split at h
  · next hw => cases h; exact ⟨rfl, by simpa [Operand.wf] using hw⟩
  · split at h
    · next h1 h2 =>
      cases h
      refine ⟨?_, rfl⟩
      apply BitVec.eq_of_toNat_eq
      simp only [Operand.word, BitVec.toNat_ofNat]
      omega
    · cases h

/-- A word that does not classify is above 32775, and the rejection names it (R70). -/
theorem classify_error {w : Word} {e : DecodeReject} (h : classify w = .error e) :
    w.toNat ≥ 32776 ∧ e = .invalidOperand w := by
  unfold classify at h
  split at h
  · cases h
  · split at h
    · cases h
    · next h2 => cases h; exact ⟨by omega, rfl⟩

/-- Taking the operand that was encoded. -/
theorem takeOperand_word {op : Operand} (h : op.wf = true) (k : Nat) (rest : List Word) :
    takeOperand k (op.word :: rest) = .ok (op, rest) := by
  simp [takeOperand, classify_word h]

/-- An operand that was taken is the classified first word. -/
theorem takeOperand_ok {k : Nat} {ws rest : List Word} {op : Operand} (h : takeOperand k ws = .ok (op, rest)) :
    ws = op.word :: rest ∧ op.wf = true := by
  cases ws with
  | nil => cases h
  | cons w r =>
    cases hc : classify w with
    | ok o =>
      simp only [takeOperand, hc] at h
      cases h
      exact ⟨by rw [(classify_ok hc).1], (classify_ok hc).2⟩
    | error e => simp only [takeOperand, hc] at h; cases h

/-- An operand that could not be taken: no word at its offset, or an invalid one. -/
theorem takeOperand_error {k : Nat} {ws : List Word} {e : DecodeReject} (h : takeOperand k ws = .error e) :
    (ws = [] ∧ e = .missingWord k) ∨ ∃ w rest, ws = w :: rest ∧ w.toNat ≥ 32776 ∧ e = .invalidOperand w := by
  cases ws with
  | nil => cases h; exact .inl ⟨rfl, rfl⟩
  | cons w r =>
    cases hc : classify w with
    | ok o => simp only [takeOperand, hc] at h; cases h
    | error e' =>
      simp only [takeOperand, hc] at h
      cases h
      exact .inr ⟨w, r, rfl, classify_error hc⟩

/-- One operand that decoded. -/
theorem decodeF1_ok {mk : Operand → Instr} {ws rest : List Word} {i : Instr} (h : decodeF1 mk ws = .ok (i, rest)) :
    ∃ a, i = mk a ∧ ws = a.word :: rest ∧ a.wf = true := by
  unfold decodeF1 at h
  split at h
  · cases h
  · next a r e => cases h; exact ⟨a, rfl, takeOperand_ok e⟩

/-- Two operands that decoded. -/
theorem decodeF2_ok {mk : Operand → Operand → Instr} {ws rest : List Word} {i : Instr}
    (h : decodeF2 mk ws = .ok (i, rest)) :
    ∃ a b, i = mk a b ∧ ws = a.word :: b.word :: rest ∧ a.wf = true ∧ b.wf = true := by
  unfold decodeF2 at h
  split at h
  · cases h
  · next a r ea =>
    split at h
    · cases h
    · next b r2 eb =>
      cases h
      obtain ⟨rfl, ha⟩ := takeOperand_ok ea
      obtain ⟨rfl, hb⟩ := takeOperand_ok eb
      exact ⟨a, b, rfl, rfl, ha, hb⟩

/-- Three operands that decoded. -/
theorem decodeF3_ok {mk : Operand → Operand → Operand → Instr} {ws rest : List Word} {i : Instr}
    (h : decodeF3 mk ws = .ok (i, rest)) :
    ∃ a b c, i = mk a b c ∧ ws = a.word :: b.word :: c.word :: rest ∧
      a.wf = true ∧ b.wf = true ∧ c.wf = true := by
  unfold decodeF3 at h
  split at h
  · cases h
  · next a r ea =>
    split at h
    · cases h
    · next b r2 eb =>
      split at h
      · cases h
      · next c r3 ec =>
        cases h
        obtain ⟨rfl, ha⟩ := takeOperand_ok ea
        obtain ⟨rfl, hb⟩ := takeOperand_ok eb
        obtain ⟨rfl, hc⟩ := takeOperand_ok ec
        exact ⟨a, b, c, rfl, rfl, ha, hb, hc⟩

/-- What a rejection says of the words: where they end, or which word is no opcode or no operand. -/
def DecodeReject.explains (ws : List Word) : DecodeReject → Prop
  | .missingWord k => ws.length = k ∧ k ≤ 3
  | .invalidOpcode w => 22 ≤ w.toNat
  | .invalidOperand w => 32776 ≤ w.toNat

theorem takeOperand_explains {k : Nat} {ws : List Word} {e : DecodeReject} (hk : k ≤ 3)
    (h : takeOperand k ws = .error e) (before : List Word) (hb : before.length = k) :
    e.explains (before ++ ws) := by
  rcases takeOperand_error h with ⟨rfl, rfl⟩ | ⟨w, rest, rfl, hw, rfl⟩
  · exact ⟨by simp [hb], hk⟩
  · exact hw

theorem decodeF1_error {mk : Operand → Instr} {w : Word} {ws : List Word} {e : DecodeReject}
    (h : decodeF1 mk ws = .error e) : e.explains (w :: ws) := by
  unfold decodeF1 at h
  split at h
  · next e1 => cases h; exact takeOperand_explains (by omega) e1 [w] rfl
  · cases h

theorem decodeF2_error {mk : Operand → Operand → Instr} {w : Word} {ws : List Word} {e : DecodeReject}
    (h : decodeF2 mk ws = .error e) : e.explains (w :: ws) := by
  unfold decodeF2 at h
  split at h
  · next e1 => cases h; exact takeOperand_explains (by omega) e1 [w] rfl
  · next a r ea =>
    obtain ⟨rfl, -⟩ := takeOperand_ok ea
    split at h
    · next e2 => cases h; exact takeOperand_explains (by omega) e2 [w, a.word] rfl
    · cases h

theorem decodeF3_error {mk : Operand → Operand → Operand → Instr} {w : Word} {ws : List Word} {e : DecodeReject}
    (h : decodeF3 mk ws = .error e) : e.explains (w :: ws) := by
  unfold decodeF3 at h
  split at h
  · next e1 => cases h; exact takeOperand_explains (by omega) e1 [w] rfl
  · next a r ea =>
    obtain ⟨rfl, -⟩ := takeOperand_ok ea
    split at h
    · next e2 => cases h; exact takeOperand_explains (by omega) e2 [w, a.word] rfl
    · next b r2 eb =>
      obtain ⟨rfl, -⟩ := takeOperand_ok eb
      split at h
      · next e3 => cases h; exact takeOperand_explains (by omega) e3 [w, a.word, b.word] rfl
      · cases h

/-- Every rejection of the decoder explains itself. -/
theorem decodeWords_error {ws : List Word} {e : DecodeReject} (h : decodeWords ws = .error e) : e.explains ws := by
  cases ws with
  | nil => cases h; exact ⟨rfl, by omega⟩
  | cons w ws =>
    simp only [decodeWords] at h
    split at h
    all_goals first
      | exact decodeF1_error h
      | exact decodeF2_error h
      | exact decodeF3_error h
      | (cases h; done)
      | skip
    cases h
    show 22 ≤ w.toNat
    by_contra hlt
    obtain ⟨k, hk⟩ : ∃ k, w.toNat = k := ⟨_, rfl⟩
    rw [hk] at hlt
    interval_cases k <;> simp_all

end Sys2Proof

namespace Sys2Proof.Machine

/-- The words fetched at an address of memory: its cell, then the words fetched after it. -/
theorem wordsFrom_inside {m : Memory} {a : Word} (h : a.toNat ≤ 32767) (n : Nat) :
    wordsFrom m a (n + 1) = m.read a.toNat :: wordsFrom m (a + 1#16) n := by
  simp [wordsFrom, memRead, h]

/-- No word is fetched at an address above 32767. -/
theorem wordsFrom_outside {m : Memory} {a : Word} (h : a.toNat > 32767) (n : Nat) : wordsFrom m a n = [] := by
  cases n with
  | zero => rfl
  | succ n =>
    have : ¬ a.toNat ≤ 32767 := by omega
    simp [wordsFrom, memRead, this]

/-- The address after a cell does not wrap. -/
theorem toNat_next {a : Word} (ha : a.toNat ≤ 32767) : (a + 1#16).toNat = a.toNat + 1 := by
  have : (1#16).toNat = 1 := rfl
  rw [BitVec.toNat_add]
  omega

/-- Word `k` of those fetched at `a` is the cell at `a + k`, and every cell up to the last is among them. -/
theorem wordsFrom_getElem? {m : Memory} {a : Word} (ha : a.toNat ≤ 32767) (n k : Nat) :
    (wordsFrom m a n)[k]? = if k < n ∧ a.toNat + k ≤ 32767 then some (m.read (a.toNat + k)) else none := by
  induction n generalizing a k with
  | zero => simp [wordsFrom]
  | succ n ih =>
    rw [wordsFrom_inside ha]
    cases k with
    | zero => simp [ha]
    | succ k =>
      rw [List.getElem?_cons_succ]
      have e := toNat_next ha
      by_cases h1 : a.toNat + 1 ≤ 32767
      · rw [ih (by omega), e]
        have : a.toNat + 1 + k = a.toNat + (k + 1) := by omega
        rw [this]
        congr 1
        apply propext
        constructor <;> intro h <;> omega
      · rw [wordsFrom_outside (by omega), if_neg (by omega)]
        rfl

/-- As many words are fetched at `a` as there are cells, at most `n`. -/
theorem length_wordsFrom {m : Memory} {a : Word} (ha : a.toNat ≤ 32767) (n : Nat) :
    (wordsFrom m a n).length = min n (32768 - a.toNat) := by
  induction n generalizing a with
  | zero => simp [wordsFrom]
  | succ n ih =>
    rw [wordsFrom_inside ha, List.length_cons]
    have e := toNat_next ha
    by_cases h1 : a.toNat + 1 ≤ 32767
    · rw [ih (by omega), e]
      omega
    · rw [wordsFrom_outside (by omega)]
      simp only [List.length_nil]
      omega

/-- An instruction that was fetched and decoded: its words are those at `p`. -/
theorem fetchDecode_ok {m : Memory} {p : Word} {i : Instr} (h : fetchDecode m p = .ok i) :
    ∃ rest, decodeWords (fetchWords m p) = .ok (i, rest) := by
  unfold fetchDecode at h
  split at h
  · next j r e => cases h; exact ⟨r, e⟩
  · cases h

/-- A decode fault is a rejection of the words at `p`. -/
theorem fetchDecode_error {m : Memory} {p : Word} {k : FaultKind} (h : fetchDecode m p = .error k) :
    ∃ e, decodeWords (fetchWords m p) = .error e ∧ k = DecodeReject.toFault p e := by
  unfold fetchDecode at h
  split at h
  · cases h
  · next e he => cases h; exact ⟨e, he, rfl⟩

end Sys2Proof.Machine
end

