-- ==== Sys2Proof/Laws/Memory.lean ====
section
/-! SUPPORT. The laws of memory: every operation keeps the canonical form, a read gives the last write, and two
memories in canonical form that read alike are equal. -/

namespace Sys2Proof.Machine

@[simp] theorem read_nil (a : Nat) : Memory.read [] a = 0#16 := rfl

theorem read_cons (b : Nat) (v : Word) (m : Memory) (a : Nat) :
    Memory.read ((b, v) :: m) a = if a = b then v else Memory.read m a := rfl

/-- The canonical form of a list that begins with a cell. -/
theorem wfFrom_cons (lo b : Nat) (v : Word) (m : Memory) :
    Memory.wfFrom lo ((b, v) :: m) = true ↔
      lo ≤ b ∧ b < memWords ∧ v ≠ 0#16 ∧ Memory.wfFrom (b + 1) m = true := by
  simp [Memory.wfFrom, unlistedWord, and_assoc]

theorem wfFrom_mono {lo lo' : Nat} {m : Memory} (h : lo ≤ lo') (hm : Memory.wfFrom lo' m = true) :
    Memory.wfFrom lo m = true := by
  cases m with
  | nil => rfl
  | cons c rest =>
    obtain ⟨b, v⟩ := c
    rw [wfFrom_cons] at hm ⊢
    exact ⟨h.trans hm.1, hm.2⟩

/-- A cell below the first address is not listed. -/
theorem read_below {lo a : Nat} {m : Memory} (hm : Memory.wfFrom lo m = true) (h : a < lo) : m.read a = 0#16 := by
  induction m generalizing lo with
  | nil => rfl
  | cons c rest ih =>
    obtain ⟨b, v⟩ := c
    rw [wfFrom_cons] at hm
    rw [read_cons, if_neg (by omega)]
    exact ih hm.2.2.2 (by omega)

/-- A cell above the last address of the memory is not listed. -/
theorem read_beyond {lo a : Nat} {m : Memory} (hm : Memory.wfFrom lo m = true) (h : memWords ≤ a) : m.read a = 0#16 := by
  induction m generalizing lo with
  | nil => rfl
  | cons c rest ih =>
    obtain ⟨b, v⟩ := c
    rw [wfFrom_cons] at hm
    rw [read_cons, if_neg (by omega)]
    exact ih hm.2.2.2

theorem read_consCell (a : Nat) (v : Word) (m : Memory) (x : Nat) (h : Memory.read m a = 0#16) :
    Memory.read (Memory.consCell a v m) x = if x = a then v else m.read x := by
  unfold Memory.consCell
  split
  · next hv =>
    split
    · next hx => rw [hx, h, hv, unlistedWord]
    · rfl
  · rfl

theorem wfFrom_consCell {lo a : Nat} {v : Word} {m : Memory} (hlo : lo ≤ a) (ha : a < memWords)
    (hm : Memory.wfFrom (a + 1) m = true) : Memory.wfFrom lo (Memory.consCell a v m) = true := by
  unfold Memory.consCell
  split
  · exact wfFrom_mono (by omega) hm
  · next hv => exact (wfFrom_cons ..).2 ⟨hlo, ha, hv, hm⟩

theorem wfFrom_write {lo a : Nat} {v : Word} {m : Memory} (hm : Memory.wfFrom lo m = true) (hlo : lo ≤ a)
    (ha : a < memWords) : Memory.wfFrom lo (m.write a v) = true := by
  induction m generalizing lo with
  | nil => exact wfFrom_consCell hlo ha rfl
  | cons c rest ih =>
    obtain ⟨b, u⟩ := c
    have h := (wfFrom_cons ..).1 hm
    unfold Memory.write
    split
    · next hab => exact wfFrom_consCell hlo ha ((wfFrom_cons ..).2 ⟨by omega, h.2⟩)
    · split
      · next hab => subst hab; exact wfFrom_consCell hlo ha h.2.2.2
      · exact (wfFrom_cons ..).2 ⟨h.1, h.2.1, h.2.2.1, ih h.2.2.2 (by omega)⟩

/-- A store at an address that exists keeps the canonical form. -/
theorem wf_write {m : Memory} {a : Nat} {v : Word} (hm : m.wf = true) (ha : a < memWords) :
    (m.write a v).wf = true := wfFrom_write hm (Nat.zero_le a) ha

theorem read_write_from {lo : Nat} {m : Memory} (hm : Memory.wfFrom lo m = true) (a : Nat) (v : Word) (x : Nat) :
    (m.write a v).read x = if x = a then v else m.read x := by
  induction m generalizing lo with
  | nil => exact read_consCell a v [] x rfl
  | cons c rest ih =>
    obtain ⟨b, u⟩ := c
    have h := (wfFrom_cons ..).1 hm
    unfold Memory.write
    split
    · next hab =>
      refine read_consCell a v _ x ?_
      rw [read_cons, if_neg (by omega)]
      exact read_below h.2.2.2 (by omega)
    · split
      · next hab =>
        subst hab
        rw [read_consCell _ _ _ _ (read_below h.2.2.2 (by omega)), read_cons]
        split <;> simp_all
      · rw [read_cons, read_cons, ih h.2.2.2]
        split <;> split <;> simp_all

/-- Read after write, in canonical form. -/
theorem read_write {m : Memory} (hm : m.wf = true) (a : Nat) (v : Word) (x : Nat) :
    (m.write a v).read x = if x = a then v else m.read x := read_write_from hm a v x

theorem eq_of_read_eq_from {lo : Nat} {m n : Memory} (hm : Memory.wfFrom lo m = true)
    (hn : Memory.wfFrom lo n = true) (h : ∀ a, m.read a = n.read a) : m = n := by
  induction m generalizing lo n with
  | nil =>
    cases n with
    | nil => rfl
    | cons c rest =>
      obtain ⟨b, u⟩ := c
      have hb := h b
      rw [read_nil, read_cons, if_pos rfl] at hb
      exact absurd hb.symm ((wfFrom_cons ..).1 hn).2.2.1
  | cons c rest ih =>
    obtain ⟨b, v⟩ := c
    have hm' := (wfFrom_cons ..).1 hm
    cases n with
    | nil =>
      have hb := h b
      rw [read_nil, read_cons, if_pos rfl] at hb
      exact absurd hb hm'.2.2.1
    | cons d rest' =>
      obtain ⟨b', v'⟩ := d
      have hn' := (wfFrom_cons ..).1 hn
      have hle : b' ≤ b := by
        by_contra hlt
        have hb := h b
        rw [read_cons, if_pos rfl, read_cons, if_neg (by omega), read_below hn'.2.2.2 (by omega)] at hb
        exact hm'.2.2.1 hb
      have hge : b ≤ b' := by
        by_contra hlt
        have hb := h b'
        rw [read_cons, if_neg (by omega), read_cons, if_pos rfl, read_below hm'.2.2.2 (by omega)] at hb
        exact hn'.2.2.1 hb.symm
      obtain rfl : b = b' := by omega
      have hv := h b
      rw [read_cons, if_pos rfl, read_cons, if_pos rfl] at hv
      subst hv
      congr 1
      refine ih hm'.2.2.2 hn'.2.2.2 fun a => ?_
      have ha := h a
      rw [read_cons, read_cons] at ha
      split at ha
      · next hab =>
        subst hab
        rw [read_below hm'.2.2.2 (by omega), read_below hn'.2.2.2 (by omega)]
      · exact ha

/-- What `MemRead` can answer (R42). -/
theorem memRead_cases (m : Memory) (addr : Word) :
    (addr.toNat ≤ 32767 ∧ memRead m addr = .ok (m.read addr.toNat)) ∨
      (addr.toNat > 32767 ∧ memRead m addr = .error (.memoryOutOfBounds .read addr 32767#16)) := by
  unfold memRead
  by_cases h : addr.toNat ≤ 32767
  · exact .inl ⟨h, if_pos h⟩
  · exact .inr ⟨by omega, if_neg h⟩

theorem memRead_inside {m : Memory} {addr : Word} (h : addr.toNat ≤ 32767) :
    memRead m addr = .ok (m.read addr.toNat) := if_pos h

theorem memRead_outside {m : Memory} {addr : Word} (h : addr.toNat > 32767) :
    memRead m addr = .error (.memoryOutOfBounds .read addr 32767#16) := if_neg (Nat.not_le.2 h)

/-- What `MemWrite` can answer (R43). -/
theorem memWrite_cases (m : Memory) (addr v : Word) :
    (addr.toNat ≤ 32767 ∧ memWrite m addr v = .ok (m.write addr.toNat v)) ∨
      (addr.toNat > 32767 ∧ memWrite m addr v = .error (.memoryOutOfBounds .write addr 32767#16)) := by
  unfold memWrite
  by_cases h : addr.toNat ≤ 32767
  · exact .inl ⟨h, if_pos h⟩
  · exact .inr ⟨by omega, if_neg h⟩

theorem memWrite_inside {m : Memory} {addr v : Word} (h : addr.toNat ≤ 32767) :
    memWrite m addr v = .ok (m.write addr.toNat v) := if_pos h

theorem memWrite_outside {m : Memory} {addr v : Word} (h : addr.toNat > 32767) :
    memWrite m addr v = .error (.memoryOutOfBounds .write addr 32767#16) := if_neg (Nat.not_le.2 h)

/-- The interface keeps the canonical form. -/
theorem wf_memWrite {m m' : Memory} {addr v : Word} (hm : m.wf = true) (h : memWrite m addr v = .ok m') :
    m'.wf = true := by
  rcases memWrite_cases m addr v with ⟨ha, e⟩ | ⟨_, e⟩
  · rw [e] at h
    cases h
    exact wf_write hm (Nat.lt_succ_of_le ha)
  · rw [e] at h
    cases h

/-- Storing words for the next fetch keeps the canonical form. -/
theorem wf_storeWords {m : Memory} (hm : m.wf = true) (a : Nat) (ws : List Word) : (m.storeWords a ws).wf = true := by
  induction ws generalizing m a with
  | nil => exact hm
  | cons w ws ih =>
    unfold Memory.storeWords
    apply ih
    split
    · next ha => exact wf_write hm ha
    · exact hm

end Sys2Proof.Machine
end

