-- ==== Sys2Proof/Laws/State.lean ====
section
/-! SUPPORT. One lemma per update and field of the state: what it is after the update. The registers are seen through
`State.reg`, a destination write through `State.setOp`. -/

namespace Sys2Proof.Machine

@[simp] theorem advance_stack (s : State) (len : Word) : (s.advance len).stack = s.stack := rfl
@[simp] theorem advance_ip (s : State) (len : Word) : (s.advance len).ip = s.ip + len := rfl
@[simp] theorem advance_halted (s : State) (len : Word) : (s.advance len).halted = s.halted := rfl
@[simp] theorem advance_fault (s : State) (len : Word) : (s.advance len).fault = s.fault := rfl
@[simp] theorem advance_mem (s : State) (len : Word) : (s.advance len).mem = s.mem := rfl
@[simp] theorem advance_inWait (s : State) (len : Word) : (s.advance len).inWait = s.inWait := rfl
@[simp] theorem advance_input (s : State) (len : Word) : (s.advance len).input = s.input := rfl
@[simp] theorem advance_output (s : State) (len : Word) : (s.advance len).output = s.output := rfl
@[simp] theorem advance_cfg (s : State) (len : Word) : (s.advance len).cfg = s.cfg := rfl
@[simp] theorem advance_reg (s : State) (len : Word) (j : RegId) : (s.advance len).reg j = s.reg j := rfl

@[simp] theorem jump_stack (s : State) (t : Word) : (s.jump t).stack = s.stack := rfl
@[simp] theorem jump_ip (s : State) (t : Word) : (s.jump t).ip = t := rfl
@[simp] theorem jump_halted (s : State) (t : Word) : (s.jump t).halted = s.halted := rfl
@[simp] theorem jump_fault (s : State) (t : Word) : (s.jump t).fault = s.fault := rfl
@[simp] theorem jump_mem (s : State) (t : Word) : (s.jump t).mem = s.mem := rfl
@[simp] theorem jump_inWait (s : State) (t : Word) : (s.jump t).inWait = s.inWait := rfl
@[simp] theorem jump_input (s : State) (t : Word) : (s.jump t).input = s.input := rfl
@[simp] theorem jump_output (s : State) (t : Word) : (s.jump t).output = s.output := rfl
@[simp] theorem jump_cfg (s : State) (t : Word) : (s.jump t).cfg = s.cfg := rfl
@[simp] theorem jump_reg (s : State) (t : Word) (j : RegId) : (s.jump t).reg j = s.reg j := rfl

@[simp] theorem setMem_stack (s : State) (m : Memory) : (s.setMem m).stack = s.stack := rfl
@[simp] theorem setMem_ip (s : State) (m : Memory) : (s.setMem m).ip = s.ip := rfl
@[simp] theorem setMem_halted (s : State) (m : Memory) : (s.setMem m).halted = s.halted := rfl
@[simp] theorem setMem_fault (s : State) (m : Memory) : (s.setMem m).fault = s.fault := rfl
@[simp] theorem setMem_mem (s : State) (m : Memory) : (s.setMem m).mem = m := rfl
@[simp] theorem setMem_inWait (s : State) (m : Memory) : (s.setMem m).inWait = s.inWait := rfl
@[simp] theorem setMem_input (s : State) (m : Memory) : (s.setMem m).input = s.input := rfl
@[simp] theorem setMem_output (s : State) (m : Memory) : (s.setMem m).output = s.output := rfl
@[simp] theorem setMem_cfg (s : State) (m : Memory) : (s.setMem m).cfg = s.cfg := rfl
@[simp] theorem setMem_reg (s : State) (m : Memory) (j : RegId) : (s.setMem m).reg j = s.reg j := rfl

@[simp] theorem setStack_stack (s : State) (l : List Word) : (s.setStack l).stack = l := rfl
@[simp] theorem setStack_ip (s : State) (l : List Word) : (s.setStack l).ip = s.ip := rfl
@[simp] theorem setStack_halted (s : State) (l : List Word) : (s.setStack l).halted = s.halted := rfl
@[simp] theorem setStack_fault (s : State) (l : List Word) : (s.setStack l).fault = s.fault := rfl
@[simp] theorem setStack_mem (s : State) (l : List Word) : (s.setStack l).mem = s.mem := rfl
@[simp] theorem setStack_inWait (s : State) (l : List Word) : (s.setStack l).inWait = s.inWait := rfl
@[simp] theorem setStack_input (s : State) (l : List Word) : (s.setStack l).input = s.input := rfl
@[simp] theorem setStack_output (s : State) (l : List Word) : (s.setStack l).output = s.output := rfl
@[simp] theorem setStack_cfg (s : State) (l : List Word) : (s.setStack l).cfg = s.cfg := rfl
@[simp] theorem setStack_reg (s : State) (l : List Word) (j : RegId) : (s.setStack l).reg j = s.reg j := rfl

@[simp] theorem setInput_stack (s : State) (l : List InputAnswer) : (s.setInput l).stack = s.stack := rfl
@[simp] theorem setInput_ip (s : State) (l : List InputAnswer) : (s.setInput l).ip = s.ip := rfl
@[simp] theorem setInput_halted (s : State) (l : List InputAnswer) : (s.setInput l).halted = s.halted := rfl
@[simp] theorem setInput_fault (s : State) (l : List InputAnswer) : (s.setInput l).fault = s.fault := rfl
@[simp] theorem setInput_mem (s : State) (l : List InputAnswer) : (s.setInput l).mem = s.mem := rfl
@[simp] theorem setInput_inWait (s : State) (l : List InputAnswer) : (s.setInput l).inWait = s.inWait := rfl
@[simp] theorem setInput_input (s : State) (l : List InputAnswer) : (s.setInput l).input = l := rfl
@[simp] theorem setInput_output (s : State) (l : List InputAnswer) : (s.setInput l).output = s.output := rfl
@[simp] theorem setInput_cfg (s : State) (l : List InputAnswer) : (s.setInput l).cfg = s.cfg := rfl
@[simp] theorem setInput_reg (s : State) (l : List InputAnswer) (j : RegId) : (s.setInput l).reg j = s.reg j := rfl

@[simp] theorem halt_stack (s : State) : (s.halt).stack = s.stack := rfl
@[simp] theorem halt_ip (s : State) : (s.halt).ip = s.ip := rfl
@[simp] theorem halt_halted (s : State) : (s.halt).halted = true := rfl
@[simp] theorem halt_fault (s : State) : (s.halt).fault = s.fault := rfl
@[simp] theorem halt_mem (s : State) : (s.halt).mem = s.mem := rfl
@[simp] theorem halt_inWait (s : State) : (s.halt).inWait = s.inWait := rfl
@[simp] theorem halt_input (s : State) : (s.halt).input = s.input := rfl
@[simp] theorem halt_output (s : State) : (s.halt).output = s.output := rfl
@[simp] theorem halt_cfg (s : State) : (s.halt).cfg = s.cfg := rfl
@[simp] theorem halt_reg (s : State) (j : RegId) : (s.halt).reg j = s.reg j := rfl

@[simp] theorem raise_stack (s : State) (p : Word) (k : FaultKind) : (s.raise p k).stack = s.stack := rfl
@[simp] theorem raise_ip (s : State) (p : Word) (k : FaultKind) : (s.raise p k).ip = s.ip := rfl
@[simp] theorem raise_halted (s : State) (p : Word) (k : FaultKind) : (s.raise p k).halted = s.halted := rfl
@[simp] theorem raise_fault (s : State) (p : Word) (k : FaultKind) : (s.raise p k).fault = some { kind := k, faultIp := p } := rfl
@[simp] theorem raise_mem (s : State) (p : Word) (k : FaultKind) : (s.raise p k).mem = s.mem := rfl
@[simp] theorem raise_inWait (s : State) (p : Word) (k : FaultKind) : (s.raise p k).inWait = s.inWait := rfl
@[simp] theorem raise_input (s : State) (p : Word) (k : FaultKind) : (s.raise p k).input = s.input := rfl
@[simp] theorem raise_output (s : State) (p : Word) (k : FaultKind) : (s.raise p k).output = s.output := rfl
@[simp] theorem raise_cfg (s : State) (p : Word) (k : FaultKind) : (s.raise p k).cfg = s.cfg := rfl
@[simp] theorem raise_reg (s : State) (p : Word) (k : FaultKind) (j : RegId) : (s.raise p k).reg j = s.reg j := rfl

@[simp] theorem outWrite_stack (s : State) (b : Byte) : (s.outWrite b).stack = s.stack := rfl
@[simp] theorem outWrite_ip (s : State) (b : Byte) : (s.outWrite b).ip = s.ip := rfl
@[simp] theorem outWrite_halted (s : State) (b : Byte) : (s.outWrite b).halted = s.halted := rfl
@[simp] theorem outWrite_fault (s : State) (b : Byte) : (s.outWrite b).fault = s.fault := rfl
@[simp] theorem outWrite_mem (s : State) (b : Byte) : (s.outWrite b).mem = s.mem := rfl
@[simp] theorem outWrite_inWait (s : State) (b : Byte) : (s.outWrite b).inWait = s.inWait := rfl
@[simp] theorem outWrite_input (s : State) (b : Byte) : (s.outWrite b).input = s.input := rfl
@[simp] theorem outWrite_output (s : State) (b : Byte) : (s.outWrite b).output = s.output ++ [b] := rfl
@[simp] theorem outWrite_cfg (s : State) (b : Byte) : (s.outWrite b).cfg = s.cfg := rfl
@[simp] theorem outWrite_reg (s : State) (b : Byte) (j : RegId) : (s.outWrite b).reg j = s.reg j := rfl

@[simp] theorem beginWait_stack (s : State) (w : InWait) : (s.beginWait w).stack = s.stack := rfl
@[simp] theorem beginWait_ip (s : State) (w : InWait) : (s.beginWait w).ip = s.ip := rfl
@[simp] theorem beginWait_halted (s : State) (w : InWait) : (s.beginWait w).halted = s.halted := rfl
@[simp] theorem beginWait_fault (s : State) (w : InWait) : (s.beginWait w).fault = s.fault := rfl
@[simp] theorem beginWait_mem (s : State) (w : InWait) : (s.beginWait w).mem = s.mem := rfl
@[simp] theorem beginWait_inWait (s : State) (w : InWait) : (s.beginWait w).inWait = some w := rfl
@[simp] theorem beginWait_input (s : State) (w : InWait) : (s.beginWait w).input = s.input := rfl
@[simp] theorem beginWait_output (s : State) (w : InWait) : (s.beginWait w).output = s.output := rfl
@[simp] theorem beginWait_cfg (s : State) (w : InWait) : (s.beginWait w).cfg = s.cfg := rfl
@[simp] theorem beginWait_reg (s : State) (w : InWait) (j : RegId) : (s.beginWait w).reg j = s.reg j := rfl

@[simp] theorem endWait_stack (s : State) : (s.endWait).stack = s.stack := rfl
@[simp] theorem endWait_ip (s : State) : (s.endWait).ip = s.ip := rfl
@[simp] theorem endWait_halted (s : State) : (s.endWait).halted = s.halted := rfl
@[simp] theorem endWait_fault (s : State) : (s.endWait).fault = s.fault := rfl
@[simp] theorem endWait_mem (s : State) : (s.endWait).mem = s.mem := rfl
@[simp] theorem endWait_inWait (s : State) : (s.endWait).inWait = none := rfl
@[simp] theorem endWait_input (s : State) : (s.endWait).input = s.input := rfl
@[simp] theorem endWait_output (s : State) : (s.endWait).output = s.output := rfl
@[simp] theorem endWait_cfg (s : State) : (s.endWait).cfg = s.cfg := rfl
@[simp] theorem endWait_reg (s : State) (j : RegId) : (s.endWait).reg j = s.reg j := rfl

@[simp] theorem setReg_stack (s : State) (i : RegId) (v : Word) : (s.setReg i v).stack = s.stack := rfl
@[simp] theorem setReg_ip (s : State) (i : RegId) (v : Word) : (s.setReg i v).ip = s.ip := rfl
@[simp] theorem setReg_halted (s : State) (i : RegId) (v : Word) : (s.setReg i v).halted = s.halted := rfl
@[simp] theorem setReg_fault (s : State) (i : RegId) (v : Word) : (s.setReg i v).fault = s.fault := rfl
@[simp] theorem setReg_mem (s : State) (i : RegId) (v : Word) : (s.setReg i v).mem = s.mem := rfl
@[simp] theorem setReg_inWait (s : State) (i : RegId) (v : Word) : (s.setReg i v).inWait = s.inWait := rfl
@[simp] theorem setReg_input (s : State) (i : RegId) (v : Word) : (s.setReg i v).input = s.input := rfl
@[simp] theorem setReg_output (s : State) (i : RegId) (v : Word) : (s.setReg i v).output = s.output := rfl
@[simp] theorem setReg_cfg (s : State) (i : RegId) (v : Word) : (s.setReg i v).cfg = s.cfg := rfl

theorem setReg_reg (s : State) (i : RegId) (v : Word) (j : RegId) :
    (s.setReg i v).reg j = if i = j then v else s.reg j := by
  simp [State.reg, State.setReg, Vector.getElem_set, Fin.ext_iff]

@[simp] theorem setReg_reg_self (s : State) (i : RegId) (v : Word) : (s.setReg i v).reg i = v := by
  simp [setReg_reg]

theorem setReg_reg_of_ne (s : State) {i j : RegId} (v : Word) (h : i ≠ j) :
    (s.setReg i v).reg j = s.reg j := by
  simp [setReg_reg, h]

@[simp] theorem setOp_stack (s : State) (p : Word) (op : Operand) (v : Word) : (s.setOp p op v).stack = s.stack := by
  cases op <;> rfl
@[simp] theorem setOp_ip (s : State) (p : Word) (op : Operand) (v : Word) : (s.setOp p op v).ip = s.ip := by
  cases op <;> rfl
@[simp] theorem setOp_halted (s : State) (p : Word) (op : Operand) (v : Word) : (s.setOp p op v).halted = s.halted := by
  cases op <;> rfl
@[simp] theorem setOp_mem (s : State) (p : Word) (op : Operand) (v : Word) : (s.setOp p op v).mem = s.mem := by
  cases op <;> rfl
@[simp] theorem setOp_inWait (s : State) (p : Word) (op : Operand) (v : Word) : (s.setOp p op v).inWait = s.inWait := by
  cases op <;> rfl
@[simp] theorem setOp_input (s : State) (p : Word) (op : Operand) (v : Word) : (s.setOp p op v).input = s.input := by
  cases op <;> rfl
@[simp] theorem setOp_output (s : State) (p : Word) (op : Operand) (v : Word) : (s.setOp p op v).output = s.output := by
  cases op <;> rfl
@[simp] theorem setOp_cfg (s : State) (p : Word) (op : Operand) (v : Word) : (s.setOp p op v).cfg = s.cfg := by
  cases op <;> rfl

theorem setOp_reg (s : State) (p : Word) (op : Operand) (v : Word) (j : RegId) :
    (s.setOp p op v).reg j = if op = .reg j then v else s.reg j := by
  cases op with
  | lit l => simp [State.setOp]
  | reg i => simp [State.setOp, setReg_reg]

@[simp] theorem setOp_register (s : State) (p : Word) (i : RegId) (v : Word) :
    s.setOp p (.reg i) v = s.setReg i v := rfl

@[simp] theorem setOp_literal (s : State) (p : Word) (l v : Word) :
    s.setOp p (.lit l) v = s.raise p (.invalidWrite l) := rfl

@[simp] theorem getOp_literal (s : State) (v : Word) : s.getOp (.lit v) = v := rfl

@[simp] theorem getOp_register (s : State) (i : RegId) : s.getOp (.reg i) = s.reg i := rfl

/-- An operand reads alike in two states with the same registers. -/
theorem getOp_congr {s t : State} (h : ∀ j, t.reg j = s.reg j) (op : Operand) : t.getOp op = s.getOp op := by
  cases op <;> simp [h]

end Sys2Proof.Machine
end

