-- ==== Sys2Proof/Laws/Ops.lean ====
section
/-! SUPPORT. What each shared operation can do, said once. -/

namespace Sys2Proof.Machine

/-- Push: a full stack, or one entry more on top (R24). -/
theorem push_cases (s : State) (v : Word) :
    (s.stackFull = true ∧ s.push v = .error (.stackOverflow s.stack.length)) ∨
      (s.stackFull = false ∧ s.push v = .ok (s.setStack (s.stack ++ [v]))) := by
  unfold State.push
  cases h : s.stackFull <;> simp

/-- The stack is full exactly when a finite capacity is reached. -/
theorem stackFull_eq_true (s : State) :
    s.stackFull = true ↔ ∃ n, s.cfg.stackCapacity = .words n ∧ n ≤ s.stack.length := by
  unfold State.stackFull
  cases s.cfg.stackCapacity <;> simp [StackCapacity.isFull]

@[simp] theorem stackFull_advance (s : State) (len : Word) : (s.advance len).stackFull = s.stackFull := rfl

/-- Pop: an empty stack, or its last element and the rest (R25). -/
theorem pop_cases (s : State) :
    (s.stack = [] ∧ s.pop = none) ∨
      ∃ l v, s.stack = l ++ [v] ∧ s.pop = some (v, s.setStack l) := by
  rcases List.eq_nil_or_concat s.stack with h | ⟨l, v, h⟩
  · exact .inl ⟨h, by simp [State.pop, h]⟩
  · refine .inr ⟨l, v, by simpa using h, ?_⟩
    simp [State.pop, h]

theorem pop_empty {s : State} (h : s.stack = []) : s.pop = none := by simp [State.pop, h]

theorem pop_concat {s : State} {l : List Word} {v : Word} (h : s.stack = l ++ [v]) :
    s.pop = some (v, s.setStack l) := by
  simp [State.pop, h]

/-- InRead: no answer yet, or the next answer (R181). -/
theorem inRead_cases (s : State) :
    (s.input = [] ∧ s.inRead = none) ∨
      ∃ r rest, s.input = r :: rest ∧ s.inRead = some (r, s.setInput rest) := by
  unfold State.inRead
  cases h : s.input with
  | nil => simp
  | cons r rest => simp

theorem inRead_none {s : State} (h : s.input = []) : s.inRead = none := by simp [State.inRead, h]

theorem inRead_cons {s : State} {r : InputAnswer} {rest : List InputAnswer} (h : s.input = r :: rest) :
    s.inRead = some (r, s.setInput rest) := by
  simp [State.inRead, h]

/-- Mod's unit: a zero divisor, or the remainder (R152). -/
theorem aluMod_cases (b c : Word) :
    (c = 0#16 ∧ aluMod b c = none) ∨ (c ≠ 0#16 ∧ aluMod b c = some (BitVec.ofNat 16 (b.toNat % c.toNat))) := by
  unfold aluMod
  by_cases h : c = 0#16
  · exact .inl ⟨h, if_pos h⟩
  · exact .inr ⟨h, if_neg h⟩

/-- The run state is `running` exactly when the machine neither halted nor faulted (R31). -/
theorem runState_eq_running (s : State) : s.runState = .running ↔ s.halted = false ∧ s.fault = none := by
  unfold State.runState
  cases s.halted <;> cases s.fault <;> simp

/-- The run state depends on `halted` and the fault register only (R31). -/
theorem runState_congr {s t : State} (hh : t.halted = s.halted) (hf : t.fault = s.fault) :
    t.runState = s.runState := by
  simp only [State.runState, hh, hf]

theorem step_running {s : State} (h : s.runState = .running) : step s = stepRunning s := by
  simp [step, h]

/-- A step with a next state is the step of a running machine. -/
theorem step_next {s t : State} (h : step s = .next t) : s.runState = .running ∧ stepRunning s = .next t := by
  unfold step at h
  cases hr : s.runState <;> simp_all

/-- What the step of a running machine can be: the rest of an In, a decode fault, or an instruction. -/
theorem stepRunning_cases (s : State) :
    (∃ w, s.inWait = some w ∧ stepRunning s = resumeIn w s) ∨
    (s.inWait = none ∧ ∃ k, fetchDecode s.mem s.ip = .error k ∧ stepRunning s = .next (s.raise s.ip k)) ∨
    (s.inWait = none ∧ ∃ i, fetchDecode s.mem s.ip = .ok i ∧ stepRunning s = exec i s) := by
  unfold stepRunning
  cases hw : s.inWait with
  | some w => exact .inl ⟨w, rfl, rfl⟩
  | none =>
    cases hd : fetchDecode s.mem s.ip with
    | error k => exact .inr (.inl ⟨rfl, k, rfl, rfl⟩)
    | ok i => exact .inr (.inr ⟨rfl, i, rfl, rfl⟩)

/-- The rest of an In: no step without an answer, or the answer is taken. -/
theorem resumeIn_cases (w : InWait) (s : State) :
    (s.input = [] ∧ resumeIn w s = .fault .inputNotAnswered) ∨
      ∃ r rest, s.input = r :: rest ∧ resumeIn w s = .next ((s.setInput rest).endWait.takeAnswer w r) := by
  unfold resumeIn
  rcases inRead_cases s with ⟨h, e⟩ | ⟨r, rest, h, e⟩
  · exact .inl ⟨h, by rw [e]⟩
  · exact .inr ⟨r, rest, h, by rw [e]⟩

@[simp] theorem takeAnswer_byte (s : State) (w : InWait) (b : Byte) :
    s.takeAnswer w (.byte b) = s.setOp w.opAddr w.dest (b.setWidth 16) := rfl
@[simp] theorem takeAnswer_closed (s : State) (w : InWait) :
    s.takeAnswer w .closed = s.raise w.opAddr .inputChannelClosed := rfl
@[simp] theorem takeAnswer_error (s : State) (w : InWait) :
    s.takeAnswer w .error = s.raise w.opAddr .inputError := rfl

/-- A load of words: nothing more, a failed stream, a checked store and the rest, or the fault of the store (R232). -/
theorem loadFrom_cons_cases (a : Nat) (fails : Bool) (w : Word) (ws : List Word) (s : State) (h : a ≤ 32768) :
    (a ≤ 32767 ∧ loadFrom a fails (w :: ws) s = loadFrom (a + 1) fails ws (s.setMem (s.mem.write a w))) ∨
      (a = 32768 ∧
        loadFrom a fails (w :: ws) s = s.raise 0#16 (.memoryOutOfBounds .write 32768#16 32767#16)) := by
  rcases Nat.lt_or_ge 32767 a with ha | ha
  · obtain rfl : a = 32768 := by omega
    exact .inr ⟨rfl, rfl⟩
  · refine .inl ⟨ha, ?_⟩
    have e : (BitVec.ofNat 16 a).toNat = a := by simp; omega
    simp only [loadFrom, memWrite_inside (addr := BitVec.ofNat 16 a) (by omega), e]

end Sys2Proof.Machine
end

