-- ==== Sys2Proof/Laws/Exec.lean ====
section
/-! SUPPORT. What a meaning can answer, once for each shape of instruction, and the frames of the shared operations. -/

namespace Sys2Proof.Machine

/-- The answer of Push: one entry more, or the fault of a full stack. -/
theorem execPush_cases (a : Operand) (s : State) :
    (s.stackFull = false ∧
        execPush a s = .next ((s.advance 2#16).setStack (s.stack ++ [s.getOp a]))) ∨
      (s.stackFull = true ∧
        execPush a s = .next ((s.advance 2#16).raise s.ip (.stackOverflow s.stack.length))) := by
  unfold execPush
  rcases push_cases (s.advance 2#16) (s.getOp a) with ⟨h, e⟩ | ⟨h, e⟩
  · exact .inr ⟨h, by rw [e]; rfl⟩
  · exact .inl ⟨h, by rw [e]; rfl⟩

/-- The answer of Pop: the top goes to the destination, or the fault of an empty stack. -/
theorem execPop_cases (a : Operand) (s : State) :
    (s.stack = [] ∧ execPop a s = .next ((s.advance 2#16).raise s.ip .stackUnderflow)) ∨
      ∃ l v, s.stack = l ++ [v] ∧ execPop a s = .next (((s.advance 2#16).setStack l).setOp s.ip a v) := by
  unfold execPop
  rcases pop_cases (s.advance 2#16) with ⟨h, e⟩ | ⟨l, v, h, e⟩
  · exact .inl ⟨h, by rw [e]⟩
  · exact .inr ⟨l, v, h, by rw [e]⟩

/-- The answer of Call: the return address pushed and the target taken, or the fault of a full stack. -/
theorem execCall_cases (a : Operand) (s : State) :
    (s.stackFull = false ∧
        execCall a s = .next (((s.advance 2#16).setStack (s.stack ++ [s.ip + 2#16])).jump (s.getOp a))) ∨
      (s.stackFull = true ∧
        execCall a s = .next ((s.advance 2#16).raise s.ip (.stackOverflow s.stack.length))) := by
  unfold execCall
  rcases push_cases (s.advance 2#16) (s.advance 2#16).ip with ⟨h, e⟩ | ⟨h, e⟩
  · exact .inr ⟨h, by rw [e]; rfl⟩
  · exact .inl ⟨h, by rw [e]; rfl⟩

/-- The answer of Ret: the return address taken, or a halt. -/
theorem execRet_cases (s : State) :
    (s.stack = [] ∧ execRet s = .next (s.advance 1#16).halt) ∨
      ∃ l v, s.stack = l ++ [v] ∧ execRet s = .next (((s.advance 1#16).setStack l).jump v) := by
  unfold execRet
  rcases pop_cases (s.advance 1#16) with ⟨h, e⟩ | ⟨l, v, h, e⟩
  · exact .inl ⟨h, by rw [e]⟩
  · exact .inr ⟨l, v, h, by rw [e]⟩

/-- The answer of Mod: the remainder, or the fault of a zero divisor. -/
theorem execMod_cases (a b c : Operand) (s : State) :
    (s.getOp c = 0#16 ∧ execMod a b c s = .next ((s.advance 4#16).raise s.ip .divisionByZero)) ∨
      (s.getOp c ≠ 0#16 ∧ ∃ v : Word, v.toNat = (s.getOp b).toNat % (s.getOp c).toNat ∧
        execMod a b c s = writeResult 4#16 a v s) := by
  unfold execMod
  by_cases h : s.getOp c = 0#16
  · exact .inl ⟨h, by rw [aluMod, if_pos h]⟩
  · obtain ⟨v, e, hv⟩ := aluMod_nonzero (b := s.getOp b) h
    exact .inr ⟨h, v, hv, by rw [e]⟩

/-- The answer of RMem: the cell to the destination, or the fault of an address above 32767. -/
theorem execRmem_cases (a b : Operand) (s : State) :
    ((s.getOp b).toNat ≤ 32767 ∧
        execRmem a b s = writeResult 3#16 a (s.mem.read (s.getOp b).toNat) s) ∨
      ((s.getOp b).toNat > 32767 ∧
        execRmem a b s =
          .next ((s.advance 3#16).raise s.ip (.memoryOutOfBounds .read (s.getOp b) 32767#16))) := by
  unfold execRmem
  rcases memRead_cases s.mem (s.getOp b) with ⟨h, e⟩ | ⟨h, e⟩
  · exact .inl ⟨h, by rw [e]⟩
  · exact .inr ⟨h, by rw [e]⟩

/-- The answer of WMem: the word stored, or the fault of an address above 32767. -/
theorem execWmem_cases (a b : Operand) (s : State) :
    ((s.getOp a).toNat ≤ 32767 ∧
        execWmem a b s = .next ((s.advance 3#16).setMem (s.mem.write (s.getOp a).toNat (s.getOp b)))) ∨
      ((s.getOp a).toNat > 32767 ∧
        execWmem a b s =
          .next ((s.advance 3#16).raise s.ip (.memoryOutOfBounds .write (s.getOp a) 32767#16))) := by
  unfold execWmem
  rcases memWrite_cases s.mem (s.getOp a) (s.getOp b) with ⟨h, e⟩ | ⟨h, e⟩
  · exact .inl ⟨h, by rw [e]⟩
  · exact .inr ⟨h, by rw [e]⟩

/-- The answer of In: the wait, or what the host's answer gives. -/
theorem execIn_cases (a : Operand) (s : State) :
    (s.input = [] ∧ execIn a s = .next ((s.advance 2#16).beginWait { dest := a, opAddr := s.ip })) ∨
      ∃ r rest, s.input = r :: rest ∧
        execIn a s = .next (((s.advance 2#16).setInput rest).takeAnswer { dest := a, opAddr := s.ip } r) := by
  unfold execIn
  rcases inRead_cases (s.advance 2#16) with ⟨h, e⟩ | ⟨r, rest, h, e⟩
  · exact .inl ⟨h, by rw [e]⟩
  · exact .inr ⟨r, rest, h, by rw [e]⟩

/-- A register write after the `ip` update changes nothing else. -/
theorem sameExcept_setReg (s : State) (len : Word) (d : RegId) (v : Word) :
    SameExcept [.reg d, .ip] s ((s.advance len).setReg d v) := by
  refine ⟨fun i hi => ?_, ?_⟩
  · rw [setReg_reg_of_ne _ _ (by rintro rfl; simp at hi), advance_reg]
  · simp

/-- A fault raised after the `ip` update changes nothing else. -/
theorem sameExcept_raise (s : State) (len p : Word) (k : FaultKind) :
    SameExcept [.fault, .ip] s ((s.advance len).raise p k) := by
  simp [SameExcept]

end Sys2Proof.Machine
end

