-- ==== Sys2Proof/Laws/PerInstr.lean ====
section
/-! SUPPORT. A fact of every instruction as syntax, proved once for each constructor: its encoding has the length that
R62 gives its format and begins with its opcode word, which R64 numbers below 22, and only a destination of R63's table
is one of its operands. -/

namespace Sys2Proof.Laws.Encoding

/-- The encoding's length, opcode word and destination. -/
def Statement (i : Instr) : Prop :=
  (encode i).length = i.length ∧ 1 ≤ i.length ∧ i.length ≤ 4 ∧
    (encode i).head? = some i.opcode ∧ i.opcode.toNat ≤ 21 ∧ (∀ a, i.dest = some a → i.operands.head? = some a)

theorem halt : Statement .halt := by simp [Statement, encode, Instr.length, Instr.operands, Instr.opcode, Instr.dest]

theorem set (a b : Operand) : Statement (.set a b) := by simp [Statement, encode, Instr.length, Instr.operands, Instr.opcode, Instr.dest]

theorem push (a : Operand) : Statement (.push a) := by simp [Statement, encode, Instr.length, Instr.operands, Instr.opcode, Instr.dest]

theorem pop (a : Operand) : Statement (.pop a) := by simp [Statement, encode, Instr.length, Instr.operands, Instr.opcode, Instr.dest]

theorem eq (a b c : Operand) : Statement (.eq a b c) := by simp [Statement, encode, Instr.length, Instr.operands, Instr.opcode, Instr.dest]

theorem gt (a b c : Operand) : Statement (.gt a b c) := by simp [Statement, encode, Instr.length, Instr.operands, Instr.opcode, Instr.dest]

theorem jmp (a : Operand) : Statement (.jmp a) := by simp [Statement, encode, Instr.length, Instr.operands, Instr.opcode, Instr.dest]

theorem jt (a b : Operand) : Statement (.jt a b) := by simp [Statement, encode, Instr.length, Instr.operands, Instr.opcode, Instr.dest]

theorem jf (a b : Operand) : Statement (.jf a b) := by simp [Statement, encode, Instr.length, Instr.operands, Instr.opcode, Instr.dest]

theorem add (a b c : Operand) : Statement (.add a b c) := by simp [Statement, encode, Instr.length, Instr.operands, Instr.opcode, Instr.dest]

theorem mult (a b c : Operand) : Statement (.mult a b c) := by simp [Statement, encode, Instr.length, Instr.operands, Instr.opcode, Instr.dest]

theorem mod (a b c : Operand) : Statement (.mod a b c) := by simp [Statement, encode, Instr.length, Instr.operands, Instr.opcode, Instr.dest]

theorem and (a b c : Operand) : Statement (.and a b c) := by simp [Statement, encode, Instr.length, Instr.operands, Instr.opcode, Instr.dest]

theorem or (a b c : Operand) : Statement (.or a b c) := by simp [Statement, encode, Instr.length, Instr.operands, Instr.opcode, Instr.dest]

theorem not (a b : Operand) : Statement (.not a b) := by simp [Statement, encode, Instr.length, Instr.operands, Instr.opcode, Instr.dest]

theorem rmem (a b : Operand) : Statement (.rmem a b) := by simp [Statement, encode, Instr.length, Instr.operands, Instr.opcode, Instr.dest]

theorem wmem (a b : Operand) : Statement (.wmem a b) := by simp [Statement, encode, Instr.length, Instr.operands, Instr.opcode, Instr.dest]

theorem call (a : Operand) : Statement (.call a) := by simp [Statement, encode, Instr.length, Instr.operands, Instr.opcode, Instr.dest]

theorem ret : Statement .ret := by simp [Statement, encode, Instr.length, Instr.operands, Instr.opcode, Instr.dest]

theorem out (a : Operand) : Statement (.out a) := by simp [Statement, encode, Instr.length, Instr.operands, Instr.opcode, Instr.dest]

theorem inp (a : Operand) : Statement (.inp a) := by simp [Statement, encode, Instr.length, Instr.operands, Instr.opcode, Instr.dest]

theorem noop : Statement .noop := by simp [Statement, encode, Instr.length, Instr.operands, Instr.opcode, Instr.dest]

end Sys2Proof.Laws.Encoding
end

