-- ==== Sys2Proof/Laws/Safety.lean ====
section
/-! SUPPORT. Runs: the induction over steps, said once. -/

namespace Sys2Proof.Machine

/-- What every step keeps holds at the end of every run. -/
theorem runFor_induction {P : State → Prop} (hstep : ∀ s t, P s → step s = .next t → P t) (n : Nat) {s : State}
    (h : P s) : P (runFor n s) := by
  induction n generalizing s with
  | zero => exact h
  | succ n ih =>
    unfold runFor
    cases hs : step s with
    | next t => exact ih (hstep s t h hs)
    | fault r => exact h
    | refused r => exact h

/-- A state without a step is the end of every run from it. -/
theorem runFor_of_no_step {s : State} (h : ∀ t, step s ≠ .next t) (n : Nat) : runFor n s = s := by
  cases n with
  | zero => rfl
  | succ n =>
    unfold runFor
    cases hs : step s with
    | next t => exact absurd hs (h t)
    | fault r => rfl
    | refused r => rfl

/-- A run of `m + n` steps is a run of `m` steps and then one of `n`. -/
theorem runFor_add (m n : Nat) (s : State) : runFor (m + n) s = runFor n (runFor m s) := by
  induction m generalizing s with
  | zero => simp [runFor]
  | succ m ih =>
    rw [Nat.succ_add]
    cases hs : step s with
    | next t =>
      have h1 : runFor (m + n + 1) s = runFor (m + n) t := by rw [runFor, hs]
      have h2 : runFor (m + 1) s = runFor m t := by rw [runFor, hs]
      rw [h1, h2, ih]
    | fault r =>
      have hno : ∀ t, step s ≠ .next t := by simp [hs]
      rw [runFor_of_no_step hno, runFor_of_no_step hno, runFor_of_no_step hno]
    | refused r =>
      have hno : ∀ t, step s ≠ .next t := by simp [hs]
      rw [runFor_of_no_step hno, runFor_of_no_step hno, runFor_of_no_step hno]

/-- Reset's memory is in canonical form. -/
theorem wf_reset_mem : State.reset.mem.wf = true := rfl

/-- A load keeps memory in canonical form, whatever its end. -/
theorem wf_loadFrom (a : Nat) (fails : Bool) (ws : List Word) (s : State) (ha : a ≤ 32768)
    (h : s.mem.wf = true) : (loadFrom a fails ws s).mem.wf = true := by
  induction ws generalizing a s with
  | nil =>
    unfold loadFrom
    split <;> exact h
  | cons w ws ih =>
    rcases loadFrom_cons_cases a fails w ws s ha with ⟨h1, e⟩ | ⟨h1, e⟩
    · rw [e]
      exact ih _ _ (by omega) (wf_write h (Nat.lt_succ_of_le h1))
    · rw [e]
      exact h

/-- Storing an instruction for the next fetch keeps the canonical form. -/
theorem wf_withFetchWord {s : State} (h : s.mem.wf = true) (nbits w : Nat) :
    (s.withFetchWord nbits w).mem.wf = true := wf_storeWords h _ _

end Sys2Proof.Machine
end

