-- ==== Sys2Proof/Tests/Slice0.lean ====
section
/-! SUPPORT. The model's own tests, then the witnesses of the statements' hypotheses. Expected results come from spec/:
the words of the decode tests are written out from R62, R64 and R66, and the step tests are vectors of
95_test_vectors.md (E: the source's examples; 2.1 to 2.9: the derived vectors). -/

open Sys2Proof Sys2Proof.Machine Sys2Proof.Claims

namespace Sys2Proof.Tests

/-- A reset machine with words from cell `ip` on, about to fetch there. -/
def prog (ip : Nat) (ws : List Word) : State :=
  { State.reset with ip := BitVec.ofNat 16 ip, mem := Memory.storeWords [] ip ws }

/-- What `f` sees after one step, if there is a next state. -/
def after {α : Type} (s : State) (f : State → α) : Option α :=
  match step s with
  | .next t => some (f t)
  | _ => none

/-- The fault register after one step: kind and `fault_ip`; with `ip`. -/
def faultAfter (s : State) : Option (Option FaultRecord × Word) := after s fun t => (t.fault, t.ip)

/-! ## Well-formedness: a literal that the encoding cannot hold, in each position -/

theorem test_wf_refuses_literal_a : (Instr.push (.lit 32768)).wf = false := by decide
theorem test_wf_refuses_literal_b : (Instr.set (.reg 0) (.lit 65535)).wf = false := by decide
theorem test_wf_refuses_literal_c : (Instr.add (.reg 0) (.reg 1) (.lit 40000)).wf = false := by decide
theorem test_wf_accepts : (Instr.add (.lit 0) (.lit 32767) (.reg 7)).wf = true := by decide

/-! ## Decoding: words written out in bits of 16 from R64 and R66 -/

theorem test_decode_halt : decodeWords [0b0000000000000000#16] = .ok (.halt, []) := by decide
theorem test_decode_set : decodeWords [0b0000000000000001#16, 0b1000000000000011#16, 0b0111111111111111#16]
    = .ok (.set (.reg 3) (.lit 32767), []) := by decide
theorem test_decode_push : decodeWords [0b0000000000000010#16, 0b1000000000000111#16] = .ok (.push (.reg 7), []) := by
  decide
theorem test_decode_pop : decodeWords [0b0000000000000011#16, 0b1000000000000000#16] = .ok (.pop (.reg 0), []) := by
  decide
theorem test_decode_eq : decodeWords [0b0000000000000100#16, 0b1000000000000001#16, 0b0000000000000101#16,
    0b1000000000000110#16] = .ok (.eq (.reg 1) (.lit 5) (.reg 6), []) := by decide
theorem test_decode_gt : decodeWords [0b0000000000000101#16, 0b1000000000000010#16, 0b1000000000000100#16,
    0b0000000000000000#16] = .ok (.gt (.reg 2) (.reg 4) (.lit 0), []) := by decide
theorem test_decode_jmp : decodeWords [0b0000000000000110#16, 0b0000000001100100#16] = .ok (.jmp (.lit 100), []) := by
  decide
theorem test_decode_jt : decodeWords [0b0000000000000111#16, 0b1000000000000101#16, 0b0000000000110010#16]
    = .ok (.jt (.reg 5) (.lit 50), []) := by decide
theorem test_decode_jf : decodeWords [0b0000000000001000#16, 0b0000000000000001#16, 0b1000000000000101#16]
    = .ok (.jf (.lit 1) (.reg 5), []) := by decide
theorem test_decode_add : decodeWords [0b0000000000001001#16, 0b1000000000000000#16, 0b1000000000000001#16,
    0b0000000000000100#16] = .ok (.add (.reg 0) (.reg 1) (.lit 4), []) := by decide
theorem test_decode_mult : decodeWords [0b0000000000001010#16, 0b1000000000000001#16, 0b1000000000000010#16,
    0b1000000000000011#16] = .ok (.mult (.reg 1) (.reg 2) (.reg 3), []) := by decide
theorem test_decode_mod : decodeWords [0b0000000000001011#16, 0b1000000000000001#16, 0b1000000000000000#16,
    0b0000000000000111#16] = .ok (.mod (.reg 1) (.reg 0) (.lit 7), []) := by decide
theorem test_decode_and : decodeWords [0b0000000000001100#16, 0b1000000000000000#16, 0b0111111111111111#16,
    0b0101010101010101#16] = .ok (.and (.reg 0) (.lit 0x7fff) (.lit 0x5555), []) := by decide
theorem test_decode_or : decodeWords [0b0000000000001101#16, 0b1000000000000000#16, 0b0010101010101010#16,
    0b0101010101010101#16] = .ok (.or (.reg 0) (.lit 0x2aaa) (.lit 0x5555), []) := by decide
theorem test_decode_not : decodeWords [0b0000000000001110#16, 0b1000000000000001#16, 0b1000000000000000#16]
    = .ok (.not (.reg 1) (.reg 0), []) := by decide
theorem test_decode_rmem : decodeWords [0b0000000000001111#16, 0b1000000000000000#16, 0b0000000000010100#16]
    = .ok (.rmem (.reg 0) (.lit 20), []) := by decide
theorem test_decode_wmem : decodeWords [0b0000000000010000#16, 0b0000000000010101#16, 0b1000000000000001#16]
    = .ok (.wmem (.lit 21) (.reg 1), []) := by decide
theorem test_decode_call : decodeWords [0b0000000000010001#16, 0b0000000000001000#16] = .ok (.call (.lit 8), []) := by
  decide
theorem test_decode_ret : decodeWords [0b0000000000010010#16] = .ok (.ret, []) := by decide
theorem test_decode_out : decodeWords [0b0000000000010011#16, 0b0000000001000001#16] = .ok (.out (.lit 65), []) := by
  decide
theorem test_decode_in : decodeWords [0b0000000000010100#16, 0b1000000000000000#16] = .ok (.inp (.reg 0), []) := by
  decide
theorem test_decode_noop : decodeWords [0b0000000000010101#16] = .ok (.noop, []) := by decide

/-- 2.1: rejections by name. -/
theorem test_decode_rejects :
    decodeWords [22, 40000] = .error (.invalidOpcode 22) ∧
    decodeWords [32768] = .error (.invalidOpcode 32768) ∧
    decodeWords [1, 32768, 32776] = .error (.invalidOperand 32776) ∧
    decodeWords [1, 32776, 32777] = .error (.invalidOperand 32776) ∧
    decodeWords [2] = .error (.missingWord 1) := by decide

/-- The opcode table's numbering: the first word is bits 15 to 0, and bits above `nbits` are 0. -/
theorem test_table_word : decodeTableWord 48 0x7fff80030001 = some (.set (.reg 3) (.lit 32767)) ∧
    decodeTableWord 16 0xfff0009 = some (.add (.lit 0) (.lit 0) (.lit 0)) ∧ decodeTableWord 16 22 = none := by decide

/-- An instruction stored for the next fetch is the one the step runs. -/
theorem test_fetch_word : after (State.reset.withFetchWord 64 0x0004800180000009) (fun t => (t.reg 0, t.ip))
    = some (4, 4) := by decide

/-! ## Steps -/

/-- 2.1. -/
theorem test_fetch_faults :
    faultAfter (prog 32767 [2]) = some (some ⟨.memoryOutOfBounds .read 32768 32767, 32767⟩, 32767) ∧
    faultAfter (prog 65535 []) = some (some ⟨.memoryOutOfBounds .read 65535 32767, 65535⟩, 65535) ∧
    faultAfter (prog 0 [22, 40000]) = some (some ⟨.invalidOpcode 22, 0⟩, 0) ∧
    faultAfter (prog 0 [1, 32768, 32776]) = some (some ⟨.invalidOperand 32776, 0⟩, 0) := by decide

/-- E12, and 2.1's Halt in the last cell. -/
theorem test_halt : after (prog 0 [0]) (fun t => (t.halted, t.ip)) = some (true, 1) ∧
    after (prog 32767 [0]) (fun t => (t.halted, t.ip, t.fault)) = some (true, 32768, none) := by decide

/-- R101's example. -/
theorem test_noop : after (prog 2 [21]) (fun t => t) = some { prog 2 [21] with ip := 3 } := by decide

/-- R110's example, and 2.3's literal destination. -/
theorem test_set : after (prog 0 [1, 32768, 123]) (fun t => (t.reg 0, t.ip)) = some (123, 3) := by decide
theorem test_set_literal : faultAfter (prog 0 [1, 5, 3]) = some (some ⟨.invalidWrite 5, 0⟩, 3) := by decide

/-- R111's example, and 2.3's full stack of capacity 1. -/
theorem test_push : after (prog 0 [2, 7]) (fun t => t.stack) = some [7] := by decide
theorem test_push_full : after { prog 2 [2, 2] with stack := [1], cfg := ⟨.words 1⟩ } (fun t => (t.fault, t.stack))
    = some (some ⟨.stackOverflow 1, 2⟩, [1]) := by decide

/-- R112's example, and 2.3's literal destination: the pop happened. -/
theorem test_pop : after { prog 0 [3, 32769] with stack := [5, 9] } (fun t => (t.reg 1, t.stack)) = some (9, [5]) := by
  decide
theorem test_pop_literal : after { prog 2 [3, 5] with stack := [9] } (fun t => (t.fault, t.stack, t.ip))
    = some (some ⟨.invalidWrite 5, 2⟩, [], 4) := by decide
/-- 2.3. -/
theorem test_pop_empty : faultAfter (prog 0 [3, 32768]) = some (some ⟨.stackUnderflow, 0⟩, 2) := by decide

/-- 2.4: no folding, and unsigned. -/
theorem test_eq : after ((prog 0 [4, 32769, 32768, 7232]).setReg 0 40000) (fun t => t.reg 1) = some 0 ∧
    after (prog 0 [4, 32768, 32768, 32768]) (fun t => t.reg 0) = some 1 := by decide
theorem test_gt : after ((prog 0 [5, 32769, 32768, 32767]).setReg 0 48282) (fun t => t.reg 1) = some 1 ∧
    after (prog 0 [5, 32769, 3, 3]) (fun t => t.reg 1) = some 0 := by decide

/-- 2.5. -/
theorem test_jmp : after (prog 0 [6, 100]) (fun t => t.ip) = some 100 := by decide
theorem test_jt : after (prog 10 [7, 0, 50]) (fun t => t.ip) = some 13 ∧
    after ((prog 10 [7, 32768, 50]).setReg 0 40000) (fun t => t.ip) = some 50 := by decide
theorem test_jf : after (prog 10 [8, 0, 50]) (fun t => t.ip) = some 50 ∧
    after ((prog 10 [8, 32768, 50]).setReg 0 3) (fun t => t.ip) = some 13 := by decide
theorem test_call : after ((prog 3 [17, 32768]).setReg 0 20) (fun t => (t.stack, t.ip)) = some ([5], 20) ∧
    after (prog 32766 [17, 100]) (fun t => (t.stack, t.ip)) = some ([32768], 100) := by decide
theorem test_ret : after { prog 12 [18] with stack := [5] } (fun t => (t.ip, t.stack)) = some (5, []) ∧
    after (prog 12 [18]) (fun t => (t.halted, t.ip, t.fault)) = some (true, 13, none) := by decide

/-- 2.6. -/
theorem test_add : after (prog 0 [9, 32768, 32767, 10]) (fun t => t.reg 0) = some 9 ∧
    after ((prog 0 [9, 32768, 32768, 32768]).setReg 0 65535) (fun t => t.reg 0) = some 32766 := by decide
theorem test_mult : after (prog 0 [10, 32768, 30000, 30000]) (fun t => t.reg 0) = some 26880 ∧
    after ((prog 0 [10, 32769, 32768, 32768]).setReg 0 65535) (fun t => t.reg 1) = some 1 := by decide
theorem test_mod :
    after (((prog 0 [11, 32770, 32768, 32769]).setReg 0 48282).setReg 1 50000) (fun t => t.reg 2) = some 48282 := by
  decide
theorem test_mod_zero : after (prog 0 [11, 32768, 5, 0]) (fun t => (t.fault, t.ip, t.reg 0))
    = some (some ⟨.divisionByZero, 0⟩, 4, 0) := by decide
theorem test_and : after ((prog 0 [12, 32769, 32768, 0x00ff]).setReg 0 48282) (fun t => t.reg 1) = some 0x009a := by
  decide
theorem test_or : after ((prog 0 [13, 32769, 32768, 0]).setReg 0 48282) (fun t => t.reg 1) = some 48282 ∧
    after (prog 0 [13, 32768, 0x2aaa, 0x5555]) (fun t => t.reg 0) = some 0x7fff := by decide
theorem test_not : after ((prog 0 [14, 32769, 32768]).setReg 0 0xbc9a) (fun t => t.reg 1) = some 0x4365 ∧
    after (prog 0 [14, 32768, 0x7fff]) (fun t => t.reg 0) = some 0 := by decide

/-- 2.7. -/
theorem test_rmem : after { prog 0 [15, 32768, 20] with mem := [(0, 15), (1, 32768), (2, 20), (20, 0xbc9a)] }
    (fun t => t.reg 0) = some 48282 := by decide
theorem test_rmem_outside : after ((prog 0 [15, 32768, 32769]).setReg 1 32768) (fun t => (t.fault, t.reg 0))
    = some (some ⟨.memoryOutOfBounds .read 32768 32767, 0⟩, 0) := by decide
theorem test_wmem : after ((prog 0 [16, 21, 32769]).setReg 1 6) (fun t => t.mem)
    = some [(0, 16), (1, 21), (2, 32769), (21, 6)] := by decide
theorem test_wmem_outside : after ((prog 3 [16, 32768, 1]).setReg 0 32768) (fun t => (t.fault, t.mem))
    = some (some ⟨.memoryOutOfBounds .write 32768 32767, 3⟩, [(3, 16), (4, 32768), (5, 1)]) := by decide

/-- 2.8: 300 sends 44. -/
theorem test_out : after ((prog 0 [19, 32768]).setReg 0 300) (fun t => t.output) = some [0x2c] := by decide
/-- 2.8: zero extension, and the literal destination after which the byte was taken. -/
theorem test_in : after { prog 0 [20, 32768] with input := [.byte 0xff] } (fun t => (t.reg 0, t.input))
    = some (255, []) := by decide
theorem test_in_literal : after { prog 0 [20, 5] with input := [.byte 0x7a] } (fun t => (t.fault, t.input))
    = some (some ⟨.invalidWrite 5, 0⟩, []) := by decide
/-- 2.8: an In that the host never answers: not halted, no fault, and no step. -/
theorem test_in_unanswered :
    after (prog 0 [20, 32768]) (fun t => (t.halted, t.fault, t.blocked, t.ip)) = some (false, none, true, 2) := by decide

/-- E4, and 2.9's odd byte. -/
theorem test_image_bytes : wordsOfBytes [0x12, 0x34, 0x56, 0x78, 0x9a, 0xbc] = [0x3412, 0x7856, 0xbc9a] ∧
    wordsOfBytes [0x01, 0x00, 0x05] = [1] := by decide
theorem test_load : (State.boot .default ⟨[0x3412, 0x7856, 0xbc9a], false⟩ []).mem =
    [(0, 0x3412), (1, 0x7856), (2, 0xbc9a)] := by decide
theorem test_load_error : (State.boot .default ⟨[], true⟩ []).fault = some ⟨.loadError, 0⟩ := by decide

/-! ## Witnesses: for each statement with hypotheses, a case that meets them; one for each clause, at its boundary -/

theorem witness_DecodeInvertsEncode : (Instr.add (.reg 7) (.lit 32767) (.lit 0)).wf = true := by decide

theorem witness_DecodedWordsAreTheEncoding :
    decodeWords [9, 32775, 32767, 0, 21] = .ok (.add (.reg 7) (.lit 32767) (.lit 0), [21]) := by decide

/-- The clauses' ranges meet without a gap and without an overlap. -/
theorem witness_OperandWordClassification :
    (32767#16).toNat ≤ 32767 ∧ (32768#16).toNat = 32768 + (0 : RegId).val ∧
    (32775#16).toNat = 32768 + (7 : RegId).val ∧ 32776 ≤ (32776#16).toNat := by decide

theorem witness_OpcodeFixesLength :
    decodeWords [0, 7] = .ok (.halt, [7]) ∧ decodeWords [2, 7] = .ok (.push (.lit 7), []) ∧
    decodeWords [16, 7, 8, 9] = .ok (.wmem (.lit 7) (.lit 8), [9]) ∧
    decodeWords [13, 32768, 7, 8] = .ok (.or (.reg 0) (.lit 7) (.lit 8), []) := by decide

theorem witness_UnknownOpcodeIsInvalid :
    22 ≤ (22#16).toNat ∧ Fetching (prog 32767 [22]) ∧ (prog 32767 [22]).ip.toNat ≤ 32767 ∧
    22 ≤ ((prog 32767 [22]).mem.read (prog 32767 [22]).ip.toNat).toNat :=
  ⟨by decide, ⟨by decide, by decide⟩, by decide, by decide⟩

theorem witness_FirstInvalidOperandEndsDecoding :
    (20#16).toNat ≤ 21 ∧ 2 ≤ specLength (20#16).toNat ∧ 32776 ≤ (32776#16).toNat ∧
    3 ≤ specLength (16#16).toNat ∧ classify 32767 = .ok (.lit 32767) ∧
    4 ≤ specLength (13#16).toNat ∧ classify 32775 = .ok (.reg 7) := by decide

theorem witness_StepRunsDecodedInstruction :
    Fetching (prog 32766 [19, 65]) ∧
    decodeWords (fetchWords (prog 32766 [19, 65]).mem (prog 32766 [19, 65]).ip) = .ok (.out (.lit 65), []) :=
  ⟨⟨by decide, by decide⟩, by decide⟩

theorem witness_HaltedOrFaultedHasNoStep :
    State.reset.halt.halted = true ∧ (State.reset.raise 0 .divisionByZero).fault ≠ none := by decide

/-- Each clause, at the last cell and just past it: the opcode outside, the opcode invalid, the third operand outside
and the first operand invalid. -/
theorem witness_DecodeFaultsInOrder :
    (Fetching (prog 32768 []) ∧ 32767 < (prog 32768 []).ip.toNat) ∧
    (Fetching (prog 32767 [22]) ∧ 22 ≤ ((prog 32767 [22]).mem.read 32767).toNat) ∧
    (Fetching (prog 32765 [9, 32775, 32767]) ∧ ((prog 32765 [9, 32775, 32767]).mem.read 32765).toNat ≤ 21 ∧
      3 < specLength ((prog 32765 [9, 32775, 32767]).mem.read 32765).toNat ∧
      (∀ j : Nat, 1 ≤ j → j < 3 → 32765 + j ≤ 32767 ∧
        ((prog 32765 [9, 32775, 32767]).mem.read (32765 + j)).toNat ≤ 32775) ∧
      32767 < (prog 32765 [9, 32775, 32767]).ip.toNat + 3) ∧
    (Fetching (prog 32766 [2, 32776]) ∧ 1 < specLength ((prog 32766 [2, 32776]).mem.read 32766).toNat ∧
      32776 ≤ ((prog 32766 [2, 32776]).mem.read (32766 + 1)).toNat) := by
  refine ⟨⟨⟨by decide, by decide⟩, by decide⟩, ⟨⟨by decide, by decide⟩, by decide⟩,
    ⟨⟨by decide, by decide⟩, by decide, by decide, fun j h1 h2 => ?_, by decide⟩,
    ⟨by decide, by decide⟩, by decide, by decide⟩
  obtain rfl | rfl : j = 1 ∨ j = 2 := by omega
  · decide
  · decide

theorem witness_DecodingReadsOnlyItsWords :
    fetchDecode [(0, 19), (1, 65), (2, 9)] 0 = .ok (.out (.lit 65)) ∧
    ∀ k, k < (Instr.out (.lit 65)).length →
      Memory.read [(0, 19), (1, 65)] ((0#16).toNat + k) =
        Memory.read [(0, 19), (1, 65), (2, 9)] ((0#16).toNat + k) := by decide

theorem witness_NextIpIsTheMultiplexers :
    ∃ t, exec .ret { State.reset with stack := [5] } = .next t ∧ t.fault = none ∧ t.inWait = none :=
  ⟨_, rfl, rfl, rfl⟩

theorem witness_RunningMachineAlwaysSteps :
    State.reset.runState = .running ∧ State.reset.blocked = false := by decide

/-- A fault of the step's own instruction, and one of an In that held. -/
theorem witness_FaultRecordHoldsOpcodeAddress :
    (prog 3 [18, 0]).inWait = none ∧
    after (prog 7 [3, 32768]) (fun t => t.fault) = some (some ⟨.stackUnderflow, 7⟩) ∧
    after { prog 9 [] with inWait := some ⟨.reg 0, 7⟩, input := [.closed] } (fun t => t.fault)
      = some (some ⟨.inputChannelClosed, 7⟩) := by decide

theorem witness_HaltStopsTheMachine :
    (Fetching (prog 32767 [0]) ∧ (prog 32767 [0]).ip.toNat ≤ 32767 ∧ (prog 32767 [0]).mem.read 32767 = 0) ∧
    Fetching (prog 32768 []) ∧ 32767 < (prog 32768 []).ip.toNat :=
  ⟨⟨⟨by decide, by decide⟩, by decide, by decide⟩, ⟨by decide, by decide⟩, by decide⟩

theorem witness_NoopOnlyAdvances :
    (Fetching (prog 32767 [21]) ∧ (prog 32767 [21]).ip.toNat ≤ 32767 ∧ (prog 32767 [21]).mem.read 32767 = 21) ∧
    Fetching (prog 32768 []) ∧ 32767 < (prog 32768 []).ip.toNat :=
  ⟨⟨⟨by decide, by decide⟩, by decide, by decide⟩, ⟨by decide, by decide⟩, by decide⟩

/-- The operand words of the encoding clauses, for every instruction. -/
theorem witness_Encodes : classify 32767 = .ok (.lit 32767) ∧ classify 32768 = .ok (.reg 0) := by decide

/-- An unbounded stack, the last free entry of a finite one, and a full one: for Push and Call. -/
theorem witness_PushAppendsItsSource_CallPushesReturnAddress :
    (∀ n, State.reset.cfg.stackCapacity = .words n → State.reset.stack.length < n) ∧
    (∀ n, ({ State.reset with stack := [1], cfg := ⟨.words 2⟩ } : State).cfg.stackCapacity = .words n →
      ({ State.reset with stack := [1], cfg := ⟨.words 2⟩ } : State).stack.length < n) ∧
    ({ State.reset with stack := [1, 2], cfg := ⟨.words 2⟩ } : State).cfg.stackCapacity = .words 2 ∧
    ({ State.reset with stack := [1, 2], cfg := ⟨.words 2⟩ } : State).stack.length = 2 :=
  ⟨(fun _ h => by cases h), (fun _ h => by cases h; decide), rfl, rfl⟩

/-- A stack of one entry and an empty one: for Pop and Ret. -/
theorem witness_PopTakesTheTop_RetReturnsOrHalts :
    ({ State.reset with stack := [65535] } : State).stack = [] ++ [65535] ∧ State.reset.stack = [] := by decide

theorem witness_JmpGoesToItsTarget :
    Fetching (prog 32766 [6, 32766]) ∧
    decodeWords (fetchWords (prog 32766 [6, 32766]).mem (prog 32766 [6, 32766]).ip)
      = .ok (.jmp (.lit (prog 32766 [6, 32766]).ip), []) :=
  ⟨⟨by decide, by decide⟩, by decide⟩

/-- A zero and a nonzero operand, a literal and a register above 32767: for Jt, Jf and Mod. -/
theorem witness_JtJumpsIfNonzero_JfJumpsIfZero_ModWritesRemainder :
    State.reset.getOp (.lit 1) ≠ 0 ∧ State.reset.getOp (.reg 0) = 0 ∧
    (State.reset.setReg 0 32768).getOp (.reg 0) ≠ 0 := by decide

/-- The last clause of Jf: both jumps answer. -/
theorem witness_JfJumpsIfZero :
    (∃ t, exec (.jt (.lit 0) (.lit 50)) State.reset = .next t) ∧
    ∃ u, exec (.jf (.lit 0) (.lit 50)) State.reset = .next u := ⟨⟨_, rfl⟩, ⟨_, rfl⟩⟩

/-- The round trip: a Call that did not fault, and a state whose stack is as it left it. -/
theorem witness_CallPushesReturnAddress :
    ∃ t v, exec (.call (.lit 8)) State.reset = .next t ∧ State.reset.fault = none ∧ t.fault = none ∧
      v = prog 8 [18] ∧ ({ v with stack := t.stack } : State).stack = t.stack :=
  ⟨_, _, rfl, rfl, rfl, rfl, rfl⟩

theorem witness_ResultsStayInRange :
    (State.reset.getOp (.lit 32767)).toNat ≤ 32767 ∧ State.reset.getOp (.lit 1) ≠ 0 ∧
    (∃ t, exec (.mod (.reg 0) (.lit 32767) (.lit 1)) State.reset = .next t) ∧
    (∃ t, exec (.add (.reg 0) (.lit 32767) (.lit 1)) State.reset = .next t) :=
  ⟨by decide, by decide, ⟨_, rfl⟩, ⟨_, rfl⟩⟩

/-- The last address that exists and the first that does not: for RMem, WMem and the memory interface. -/
theorem witness_RMemCopiesTheCell_WMemStoresTheWord_MemoryInterfaceChecksBounds :
    State.reset.mem.wf = true ∧ (State.reset.getOp (.lit 32767)).toNat ≤ 32767 ∧
    32767 < ((State.reset.setReg 0 32768).getOp (.reg 0)).toNat ∧ State.reset.fault = none ∧
    (∃ t, exec (.wmem (.lit 32767) (.lit 1)) State.reset = .next t) :=
  ⟨by decide, by decide, by decide, by decide, ⟨_, rfl⟩⟩

theorem witness_MemoryFormIsCanonical :
    Memory.wf [(0, 1), (32767, 2)] = true ∧ Memory.wf [(32768, 1)] = false ∧ Memory.wf [(0, 0)] = false ∧
    Memory.wf [(1, 1), (0, 1)] = false := by decide

theorem witness_WrittenCodeIsFetched :
    State.reset.mem.wf = true ∧ (∃ t, exec (.wmem (.lit 32767) (.lit 21)) State.reset = .next t) ∧
    (32764#16).toNat + 3 ≤ 32767 ∧ (State.reset.getOp (.lit 32767)).toNat = (32764#16).toNat + 3 :=
  ⟨by decide, ⟨_, rfl⟩, by decide, by decide⟩

theorem witness_InTakesOneAnswer :
    ({ State.reset with input := [.byte 255] } : State).input = .byte 255 :: [] ∧
    ({ State.reset with input := [.closed, .byte 0] } : State).input = .closed :: [.byte 0] ∧
    ({ State.reset with input := [.error] } : State).input = .error :: [] := by decide

theorem witness_InHoldsUntilAnswered :
    State.reset.input = [] ∧ State.reset.inWait = none ∧ State.reset.runState = .running := by decide

/-- A state that meets the invariant and steps, and one that holds in an In and meets it. -/
theorem witness_StepKeepsInvariant :
    (prog 32766 [16, 32767]).inv = true ∧ (after (prog 0 [19, 65]) State.inv) = some true ∧
    (after (prog 0 [20, 32768]) State.inv) = some true ∧
    ({ State.reset with stack := [1], cfg := ⟨.words 1⟩ } : State).inv = true ∧
    ({ State.reset with stack := [1, 2], cfg := ⟨.words 1⟩ } : State).inv = false := by decide

theorem witness_BootMeetsInvariant : (Config.mk (.words 1)).stackCapacity ≠ .words 0 := by decide

theorem witness_ResetStartsAtZero :
    (State.boot .default ⟨[19, 65], false⟩ []).fault = none ∧
    decodeWords (fetchWords (State.boot .default ⟨[19, 65], false⟩ []).mem 0) = .ok (.out (.lit 65), [0, 0]) := by decide

theorem witness_OnlyTheDestinationChanges :
    (∃ t, exec (.add (.reg 0) (.reg 1) (.lit 1)) State.reset = .next t) ∧
    (Instr.add (.reg 0) (.reg 1) (.lit 1)).dest ≠ some (.reg 1) := ⟨⟨_, rfl⟩, by decide⟩

/-- For the whole-machine statements over `exec`: an instruction of each kind answers. -/
theorem witness_exec_answers :
    State.reset.mem.wf = true ∧ (∃ t, exec (.wmem (.lit 0) (.lit 1)) State.reset = .next t) ∧
    (∃ t, exec (.push (.lit 1)) State.reset = .next t) ∧ (∃ t, exec .ret State.reset = .next t) ∧
    (∃ t, exec (.out (.lit 65)) State.reset = .next t) ∧ State.reset.halt.halted = true :=
  ⟨by decide, ⟨_, rfl⟩, ⟨_, rfl⟩, ⟨_, rfl⟩, ⟨_, rfl⟩, by decide⟩

theorem witness_EndedRunsStayEnded :
    EndsNormally 1 (prog 0 [0]) ∧ EndsAbnormally 1 (prog 0 [22]) := by
  unfold EndsNormally EndsAbnormally
  decide

theorem witness_FifteenBitValuesPersist :
    FifteenBit State.reset ∧ (Instr.call (.lit 32767)).wf = true ∧
    (∃ t, exec (.call (.lit 32767)) State.reset = .next t) ∧ (State.reset.ip + 2).toNat ≤ 32767 :=
  ⟨⟨by decide, fun v h => by cases h⟩, by decide, ⟨_, rfl⟩, by decide⟩

theorem witness_LoadFillsFromZero : ([9, 32768, 32769, 4] : List Word).length ≤ 32768 := by decide

theorem witness_LoadFaultsBeforeTheFirstStep :
    32768 < (List.replicate 32769 (0 : Word)).length ∧ (List.replicate 32768 (0 : Word)).length ≤ 32768 := by
  simp only [List.length_replicate]
  omega

theorem witness_ImageBytesPairLowFirst :
    ([0x12, 0x34, 0x56] : List Byte)[2 * 0]? = some 0x12 ∧ ([0x12, 0x34, 0x56] : List Byte)[2 * 0 + 1]? = some 0x34 := by
  decide

end Sys2Proof.Tests
end

section
/-! PROOFS. The facts of 10_state.md: what changes the halted flag (R29), and where a machine starts (R22, R230). -/

namespace Sys2Proof.Machine

/-! ## The halted flag (R29) -/

@[simp] theorem takeAnswer_halted (s : State) (w : InWait) (r : InputAnswer) :
    (s.takeAnswer w r).halted = s.halted := by
  cases r <;> simp

/-- The answer of an instruction that computes a value for its destination. -/
theorem writeResult_keeps_halted (len : Word) (d : Operand) (v : Word) (s : State) :
    ∃ t, writeResult len d v s = .next t ∧ t.halted = s.halted := ⟨_, rfl, by simp⟩

/-- R29: of all instructions, Halt and Ret only can set the flag, and none clears it. Every meaning but theirs answers
a state in which the flag is as before. -/
theorem exec_keeps_halted {i : Instr} (hHalt : i ≠ .halt) (hRet : i ≠ .ret) (s : State) :
    ∃ t, exec i s = .next t ∧ t.halted = s.halted := by
  cases i with
  | halt => exact absurd rfl hHalt
  | ret => exact absurd rfl hRet
  | set a b | not a b => exact writeResult_keeps_halted _ a _ s
  | eq a b c | gt a b c | add a b c | mult a b c | and a b c | or a b c => exact writeResult_keeps_halted _ a _ s
  | mod a b c =>
    rcases execMod_cases a b c s with ⟨-, e⟩ | ⟨-, v, -, e⟩
    · exact ⟨_, e, rfl⟩
    · exact ⟨_, e, by simp⟩
  | rmem a b =>
    rcases execRmem_cases a b s with ⟨-, e⟩ | ⟨-, e⟩
    · exact ⟨_, e, by simp⟩
    · exact ⟨_, e, rfl⟩
  | wmem a b => rcases execWmem_cases a b s with ⟨-, e⟩ | ⟨-, e⟩ <;> exact ⟨_, e, rfl⟩
  | push a => rcases execPush_cases a s with ⟨-, e⟩ | ⟨-, e⟩ <;> exact ⟨_, e, rfl⟩
  | call a => rcases execCall_cases a s with ⟨-, e⟩ | ⟨-, e⟩ <;> exact ⟨_, e, rfl⟩
  | pop a =>
    rcases execPop_cases a s with ⟨-, e⟩ | ⟨l, v, -, e⟩
    · exact ⟨_, e, rfl⟩
    · exact ⟨_, e, by simp⟩
  | inp a =>
    rcases execIn_cases a s with ⟨-, e⟩ | ⟨r, rest, -, e⟩
    · exact ⟨_, e, rfl⟩
    · exact ⟨_, e, by simp⟩
  | jt a b | jf a b => exact ⟨_, rfl, by split <;> rfl⟩
  | jmp _ | out _ | noop => exact ⟨_, rfl, rfl⟩

/-- R134: Ret sets the flag where the stack is empty, and keeps it where it is not. -/
theorem execRet_halted {s t : State} (h : execRet s = .next t) :
    t.halted = true ↔ s.halted = true ∨ s.stack = [] := by
  rcases execRet_cases s with ⟨hs, e⟩ | ⟨l, v, hs, e⟩
  · obtain rfl : (s.advance 1#16).halt = t := by simpa [e] using h
    simp [hs]
  · obtain rfl : ((s.advance 1#16).setStack l).jump v = t := by simpa [e] using h
    simp [hs]

theorem exec_halted_iff {i : Instr} {s t : State} (h : exec i s = .next t) :
    t.halted = true ↔ s.halted = true ∨ i = .halt ∨ (i = .ret ∧ s.stack = []) := by
  by_cases hHalt : i = .halt
  · subst hHalt
    obtain rfl : (s.advance 1#16).halt = t := Host.Outcome.next.inj h
    simp
  by_cases hRet : i = .ret
  · subst hRet
    simpa using execRet_halted h
  obtain ⟨u, hu, heq⟩ := exec_keeps_halted hHalt hRet s
  obtain rfl : u = t := Host.Outcome.next.inj (hu.symm.trans h)
  simp [heq, hHalt, hRet]

theorem no_step_of_halted {s : State} (h : s.halted = true) (t : State) : step s ≠ .next t := by
  intro hstep
  obtain ⟨hfalse, -⟩ := (runState_eq_running s).mp (step_next hstep).1
  simp [hfalse] at h

/-- Settles O52: the flag as an equivalence over all instructions, and no step once it is set. -/
theorem haltedIsOneWay : Obligations.HaltedIsOneWay :=
  ⟨fun _ _ _ h => exec_halted_iff h, fun _ t h => no_step_of_halted h t, rfl⟩

/-! ## Reset and the first step (R22, R230) -/

@[simp] theorem reset_reg (i : RegId) : State.reset.reg i = 0#16 := by simp [State.reg, State.reset]

/-- R232: the host's load changes the memory and the fault register only. -/
theorem loadFrom_changes_mem_fault (a : Nat) (fails : Bool) (ws : List Word) (s : State) :
    ∃ m f, loadFrom a fails ws s = { s with mem := m, fault := f } := by
  induction ws generalizing a s with
  | nil => cases fails <;> exact ⟨_, _, rfl⟩
  | cons w ws ih =>
    simp only [loadFrom]
    cases memWrite s.mem (BitVec.ofNat 16 a) w with
    | ok m => exact ih (a + 1) (s.setMem m)
    | error k => exact ⟨_, _, rfl⟩

/-- R231: a new run is the reset state but for what the host chose and what the load changes. -/
theorem boot_changes_from_reset (cfg : Config) (image : ImageStream) (answers : List InputAnswer) :
    ∃ m f, State.boot cfg image answers =
      { State.reset with cfg := cfg, input := answers, mem := m, fault := f } :=
  loadFrom_changes_mem_fault 0 image.fails image.words _

section
variable (cfg : Config) (image : ImageStream) (answers : List InputAnswer)

@[simp] theorem boot_ip : (State.boot cfg image answers).ip = 0#16 := by
  obtain ⟨m, f, e⟩ := boot_changes_from_reset cfg image answers
  rw [e]; rfl

@[simp] theorem boot_halted : (State.boot cfg image answers).halted = false := by
  obtain ⟨m, f, e⟩ := boot_changes_from_reset cfg image answers
  rw [e]; rfl

@[simp] theorem boot_inWait : (State.boot cfg image answers).inWait = none := by
  obtain ⟨m, f, e⟩ := boot_changes_from_reset cfg image answers
  rw [e]; rfl

/-- R31: a load without a fault leaves the machine running, with no In that holds. -/
theorem boot_fetching (h : (State.boot cfg image answers).fault = none) :
    Claims.Fetching (State.boot cfg image answers) :=
  ⟨(runState_eq_running _).mpr ⟨boot_halted cfg image answers, h⟩, boot_inWait cfg image answers⟩

end

/-- R81, R82: the step of a fetching machine runs the instruction decoded at `ip`. -/
theorem step_of_decodeWords {s : State} {i : Instr} {rest : List Word} (hs : Claims.Fetching s)
    (hd : decodeWords (fetchWords s.mem s.ip) = .ok (i, rest)) : step s = exec i s := by
  obtain ⟨hrun, hwait⟩ := hs
  rw [step_running hrun]
  simp only [stepRunning, hwait, fetchDecode, hd]

/-- Settles O47: the reset state's own fields, and the first step after a load without a fault. -/
theorem resetStartsAtZero : Obligations.ResetStartsAtZero := by
  refine ⟨reset_reg, rfl, rfl, fun cfg image answers hfault => ?_⟩
  have hfetch := boot_fetching cfg image answers hfault
  have ⟨hrun, _⟩ := hfetch
  refine ⟨boot_ip cfg image answers, hrun, fun i rest hd => ?_⟩
  rw [← boot_ip cfg image answers] at hd
  exact step_of_decodeWords hfetch hd

end Sys2Proof.Machine
end

section
/-! PROOFS. The facts of 30_encoding.md: the ranges of operand words (R66), the format each opcode word selects (R62),
and the words that end decoding (R68, R69, R70). -/

namespace Sys2Proof

open Claims

/-! ## Operand words (R66, R68) -/

theorem classify_literal {w : Word} (h : w.toNat ≤ 32767) : classify w = .ok (.lit w) :=
  classify_word (op := .lit w) (by simpa [Operand.wf] using h)

theorem classify_register {w : Word} {i : RegId} (h : w.toNat = 32768 + i.val) : classify w = .ok (.reg i) := by
  have hw : Operand.word (.reg i) = w := by
    rw [Operand.word, ← h, BitVec.ofNat_toNat, BitVec.setWidth_eq]
  rw [← hw, classify_word rfl]

theorem classify_invalid {w : Word} (h : 32776 ≤ w.toNat) : classify w = .error (.invalidOperand w) := by
  have notLiteral : ¬ w.toNat ≤ 32767 := by omega
  have notRegister : ¬ w.toNat ≤ 32775 := by omega
  simp only [classify, notLiteral, notRegister, if_false, dite_false]

/-- Settles O4: one lemma for each of the three ranges. -/
theorem operandWordClassification : Obligations.OperandWordClassification :=
  fun _ => ⟨classify_literal, fun _ => classify_register, classify_invalid⟩

theorem takeOperand_valid {w : Word} {op : Operand} (h : classify w = .ok op) (k : Nat) (rest : List Word) :
    takeOperand k (w :: rest) = .ok (op, rest) := by
  simp only [takeOperand, h]

theorem takeOperand_invalid {w : Word} (h : 32776 ≤ w.toNat) (k : Nat) (rest : List Word) :
    takeOperand k (w :: rest) = .error (.invalidOperand w) := by
  simp only [takeOperand, classify_invalid h]

/-! ## Unknown opcodes (R69) -/

theorem decodeWords_unknown {w : Word} (h : 22 ≤ w.toNat) (rest : List Word) :
    decodeWords (w :: rest) = .error (.invalidOpcode w) := by
  obtain ⟨k, hk⟩ := Nat.exists_eq_add_of_le' h
  simp only [decodeWords, hk]

theorem opcode_le_of_decodeWords {w : Word} {ws rest : List Word} {i : Instr}
    (h : decodeWords (w :: ws) = .ok (i, rest)) : w.toNat ≤ 21 := by
  by_contra hw
  rw [decodeWords_unknown (by omega)] at h
  cases h

/-! ## The formats (R62) -/

/-- The format that an opcode word selects, with what the word alone fixes: the length of R62's table, the operands in
encoding order, and how the words after it are decoded. -/
inductive OpcodeFormat (w : Word) : Prop where
  | f0 (i : Instr) (len : specLength w.toNat = 1) (ops : i.operands = [])
      (dec : ∀ ws, decodeWords (w :: ws) = .ok (i, ws))
  | f1 (mk : Operand → Instr) (len : specLength w.toNat = 2) (ops : ∀ a, (mk a).operands = [a])
      (dec : ∀ ws, decodeWords (w :: ws) = decodeF1 mk ws)
  | f2 (mk : Operand → Operand → Instr) (len : specLength w.toNat = 3) (ops : ∀ a b, (mk a b).operands = [a, b])
      (dec : ∀ ws, decodeWords (w :: ws) = decodeF2 mk ws)
  | f3 (mk : Operand → Operand → Operand → Instr) (len : specLength w.toNat = 4)
      (ops : ∀ a b c, (mk a b c).operands = [a, b, c]) (dec : ∀ ws, decodeWords (w :: ws) = decodeF3 mk ws)

/-- Every row of the opcode map (R64) has one of the formats. -/
theorem opcodeFormat_of_le {w : Word} (h : w.toNat ≤ 21) : OpcodeFormat w := by
  obtain ⟨n, hn⟩ : ∃ n, w.toNat = n := ⟨_, rfl⟩
  obtain rfl : w = BitVec.ofNat 16 n := by rw [← hn, BitVec.ofNat_toNat, BitVec.setWidth_eq]
  rw [hn] at h
  clear hn
  match n, h with
  | 0, _ => exact .f0 .halt rfl rfl fun _ => rfl
  | 1, _ => exact .f2 .set rfl (fun _ _ => rfl) fun _ => rfl
  | 2, _ => exact .f1 .push rfl (fun _ => rfl) fun _ => rfl
  | 3, _ => exact .f1 .pop rfl (fun _ => rfl) fun _ => rfl
  | 4, _ => exact .f3 .eq rfl (fun _ _ _ => rfl) fun _ => rfl
  | 5, _ => exact .f3 .gt rfl (fun _ _ _ => rfl) fun _ => rfl
  | 6, _ => exact .f1 .jmp rfl (fun _ => rfl) fun _ => rfl
  | 7, _ => exact .f2 .jt rfl (fun _ _ => rfl) fun _ => rfl
  | 8, _ => exact .f2 .jf rfl (fun _ _ => rfl) fun _ => rfl
  | 9, _ => exact .f3 .add rfl (fun _ _ _ => rfl) fun _ => rfl
  | 10, _ => exact .f3 .mult rfl (fun _ _ _ => rfl) fun _ => rfl
  | 11, _ => exact .f3 .mod rfl (fun _ _ _ => rfl) fun _ => rfl
  | 12, _ => exact .f3 .and rfl (fun _ _ _ => rfl) fun _ => rfl
  | 13, _ => exact .f3 .or rfl (fun _ _ _ => rfl) fun _ => rfl
  | 14, _ => exact .f2 .not rfl (fun _ _ => rfl) fun _ => rfl
  | 15, _ => exact .f2 .rmem rfl (fun _ _ => rfl) fun _ => rfl
  | 16, _ => exact .f2 .wmem rfl (fun _ _ => rfl) fun _ => rfl
  | 17, _ => exact .f1 .call rfl (fun _ => rfl) fun _ => rfl
  | 18, _ => exact .f0 .ret rfl rfl fun _ => rfl
  | 19, _ => exact .f1 .out rfl (fun _ => rfl) fun _ => rfl
  | 20, _ => exact .f1 .inp rfl (fun _ => rfl) fun _ => rfl
  | 21, _ => exact .f0 .noop rfl rfl fun _ => rfl
  | k + 22, h => omega

/-- Settles O5: in each format the operands that decoded are the operand words, and the rest is behind them. -/
theorem opcodeFixesLength : Obligations.OpcodeFixesLength := by
  intro w ws rest i h
  have hw := opcode_le_of_decodeWords h
  refine ⟨hw, ?_⟩
  cases opcodeFormat_of_le hw with
  | f0 j len ops dec =>
    obtain ⟨rfl, rfl⟩ : j = i ∧ ws = rest := by simpa [dec] using h
    simp [len, ops, Instr.length]
  | f1 mk len ops dec =>
    obtain ⟨a, rfl, rfl, -⟩ := decodeF1_ok (dec ws ▸ h)
    simp [len, ops, Instr.length]
  | f2 mk len ops dec =>
    obtain ⟨a, b, rfl, rfl, -⟩ := decodeF2_ok (dec ws ▸ h)
    simp [len, ops, Instr.length]
  | f3 mk len ops dec =>
    obtain ⟨a, b, c, rfl, rfl, -⟩ := decodeF3_ok (dec ws ▸ h)
    simp [len, ops, Instr.length]

/-! ## Invalid operand words (R68, R70) -/

section
variable {n wa wb wc : Word} {a b : Operand} (hn : n.toNat ≤ 21) (rest : List Word)
include hn

theorem decodeWords_invalid_a (hlen : 2 ≤ specLength n.toNat) (h : 32776 ≤ wa.toNat) :
    decodeWords (n :: wa :: rest) = .error (.invalidOperand wa) := by
  cases opcodeFormat_of_le hn with
  | f0 _ len => omega
  | f1 _ _ _ dec => simp only [dec, decodeF1, takeOperand_invalid h]
  | f2 _ _ _ dec => simp only [dec, decodeF2, takeOperand_invalid h]
  | f3 _ _ _ dec => simp only [dec, decodeF3, takeOperand_invalid h]

theorem decodeWords_invalid_b (hlen : 3 ≤ specLength n.toNat) (ha : classify wa = .ok a) (h : 32776 ≤ wb.toNat) :
    decodeWords (n :: wa :: wb :: rest) = .error (.invalidOperand wb) := by
  cases opcodeFormat_of_le hn with
  | f0 _ len | f1 _ len => omega
  | f2 _ _ _ dec => simp only [dec, decodeF2, takeOperand_valid ha, takeOperand_invalid h]
  | f3 _ _ _ dec => simp only [dec, decodeF3, takeOperand_valid ha, takeOperand_invalid h]

theorem decodeWords_invalid_c (hlen : 4 ≤ specLength n.toNat) (ha : classify wa = .ok a) (hb : classify wb = .ok b)
    (h : 32776 ≤ wc.toNat) : decodeWords (n :: wa :: wb :: wc :: rest) = .error (.invalidOperand wc) := by
  cases opcodeFormat_of_le hn with
  | f0 _ len | f1 _ len | f2 _ len => omega
  | f3 _ _ _ dec => simp only [dec, decodeF3, takeOperand_valid ha, takeOperand_valid hb, takeOperand_invalid h]

end

/-- Settles O7: one lemma for each operand position. -/
theorem firstInvalidOperandEndsDecoding : Obligations.FirstInvalidOperandEndsDecoding :=
  fun _ _ _ _ _ _ rest hn =>
    ⟨decodeWords_invalid_a hn rest, decodeWords_invalid_b hn rest, decodeWords_invalid_c hn rest⟩

end Sys2Proof

namespace Sys2Proof.Machine

/-! ## The step that fetches an unknown opcode (R69) -/

theorem fetchWords_inside (m : Memory) {p : Word} (h : p.toNat ≤ 32767) :
    fetchWords m p = m.read p.toNat :: wordsFrom m (p + 1#16) 3 := wordsFrom_inside h 3

/-- R81: the step of a fetching machine raises what rejects the words at `ip`. -/
theorem step_of_decodeWords_error {s : State} {e : DecodeReject} (hs : Claims.Fetching s)
    (hd : decodeWords (fetchWords s.mem s.ip) = .error e) :
    step s = .next (s.raise s.ip (DecodeReject.toFault s.ip e)) := by
  obtain ⟨hrun, hwait⟩ := hs
  rw [step_running hrun]
  simp only [stepRunning, hwait, fetchDecode, hd]

/-- Settles O6: the decoder's rejection, and the step that raises it. -/
theorem unknownOpcodeIsInvalid : Obligations.UnknownOpcodeIsInvalid := by
  refine ⟨fun w rest h => decodeWords_unknown h rest, fun s hfetch hip hop => ?_⟩
  have hd : decodeWords (fetchWords s.mem s.ip) = .error (.invalidOpcode (s.mem.read s.ip.toNat)) := by
    rw [fetchWords_inside s.mem hip, decodeWords_unknown hop]
  exact ⟨_, step_of_decodeWords_error hfetch hd, rfl⟩

end Sys2Proof.Machine
end

section
/-! PROOFS. The facts of 40_execution_cycle.md: what reading and writing an operand does (R84, R85). -/

namespace Sys2Proof.Machine

/-! ## Operand access (R84, R85) -/

/-- R21: a register write alone changes only that register. -/
theorem sameExcept_setReg_only (s : State) (i : RegId) (v : Word) : SameExcept [.reg i] s (s.setReg i v) := by
  refine ⟨fun j hj => ?_, ?_⟩
  · have hij : i ≠ j := by rintro rfl; simp at hj
    exact setReg_reg_of_ne s v hij
  · simp

/-- R204: a fault alone changes only the fault register. -/
theorem sameExcept_raise_only (s : State) (p : Word) (k : FaultKind) : SameExcept [.fault] s (s.raise p k) := by
  simp [SameExcept]

/-- R204: the fault register names the kind that was raised. -/
theorem faulted_raise (s : State) (p : Word) (k : FaultKind) : Faulted k (s.raise p k) := by
  simp [Faulted]

/-- Settles O40: `set` is a register write or the fault of a literal destination, each with its own frame. -/
theorem operandAccess : Obligations.OperandAccess := by
  refine ⟨getOp_literal, getOp_register, fun s p i v => ?_, fun s p l v => ?_⟩
  · rw [setOp_register]
    exact ⟨setReg_reg_self s i v, sameExcept_setReg_only s i v⟩
  · rw [setOp_literal]
    exact ⟨faulted_raise s p (.invalidWrite l), sameExcept_raise_only s p (.invalidWrite l)⟩

end Sys2Proof.Machine
end

section
/-! PROOFS. The facts of 41_machine_control.md: Halt (R100), Noop (R101), and the fetches their corner cases name. -/

namespace Sys2Proof.Machine

/-! ## The step at a one-word instruction, and the fetch above the last cell (R73, R81, R82) -/

/-- R82: an F0 instruction needs no cell but the one at `ip`, so its step runs it up to the last cell. -/
theorem step_of_encodes0 {n : Nat} {i : Instr} {s : State} (henc : Claims.Encodes0 n i) (hs : Claims.Fetching s)
    (hip : s.ip.toNat ≤ 32767) (hw : s.mem.read s.ip.toNat = BitVec.ofNat 16 n) : step s = exec i s := by
  have hd : decodeWords (fetchWords s.mem s.ip) = .ok (i, wordsFrom s.mem (s.ip + 1#16) 3) := by
    rw [fetchWords_inside s.mem hip, hw, henc]
  exact step_of_decodeWords hs hd

/-- R81: no word is fetched above the last cell, and the missing word is the opcode word, at `p + 0`. -/
theorem step_of_fetch_outside {s : State} (hs : Claims.Fetching s) (hip : 32767 < s.ip.toNat) :
    step s = .next (s.raise s.ip (.memoryOutOfBounds .read s.ip 32767#16)) := by
  have hd : decodeWords (fetchWords s.mem s.ip) = .error (.missingWord 0) := by
    rw [fetchWords, wordsFrom_outside hip]
    rfl
  have hfault : DecodeReject.toFault s.ip (.missingWord 0) = .memoryOutOfBounds .read s.ip 32767#16 := by
    simp [DecodeReject.toFault, memAddrMax]
  rw [step_of_decodeWords_error hs hd, hfault]

theorem step_faulted_of_fetch_outside {s : State} (hs : Claims.Fetching s) (hip : 32767 < s.ip.toNat) :
    ∃ t, step s = .next t ∧ Faulted (.memoryOutOfBounds .read s.ip 32767#16) t :=
  ⟨_, step_of_fetch_outside hs hip, faulted_raise s s.ip _⟩

/-! ## Halt (R100) -/

theorem encodes0_halt : Claims.Encodes0 0 .halt := fun _ => rfl

theorem exec_halt (s : State) : exec .halt s = .next (s.advance 1#16).halt := rfl

/-- R100: the flag and the `ip` update are all that Halt changes. -/
theorem sameExcept_halt (s : State) (len : Word) : SameExcept [.halted, .ip] s (s.advance len).halt := by
  simp [SameExcept]

/-- Settles O16: Halt sets the flag, and a set flag leaves no step. -/
theorem haltStopsTheMachine : Obligations.HaltStopsTheMachine := by
  refine ⟨encodes0_halt, fun s => ?effect, fun s t h => ?terminal,
    fun _ => step_of_encodes0 encodes0_halt, fun _ => step_faulted_of_fetch_outside⟩
  case effect => exact ⟨_, exec_halt s, halt_halted _, by simp, sameExcept_halt s 1#16⟩
  case terminal => exact no_step_of_halted ((exec_halted_iff h).mpr (.inr (.inl rfl)))

/-! ## Noop (R101) -/

theorem encodes0_noop : Claims.Encodes0 21 .noop := fun _ => rfl

theorem exec_noop (s : State) : exec .noop s = .next (s.advance 1#16) := rfl

/-- R82: the `ip` update alone changes only `ip`. -/
theorem sameExcept_advance (s : State) (len : Word) : SameExcept [.ip] s (s.advance len) := by
  simp [SameExcept]

/-- Settles O17: Noop is the `ip` update alone. -/
theorem noopOnlyAdvances : Obligations.NoopOnlyAdvances :=
  ⟨encodes0_noop, fun s => ⟨_, exec_noop s, advance_ip s 1#16, sameExcept_advance s 1#16⟩,
    fun _ => step_of_encodes0 encodes0_noop, fun _ => step_faulted_of_fetch_outside⟩

end Sys2Proof.Machine
end

section
/-! PROOFS. The facts of 42_register_stack.md: Set (R110), from what every instruction of its format (R62) and of its
shape (R83) does. -/

namespace Sys2Proof

/-- R68: the operands of an F2 instruction are its two operand words, in order. -/
theorem encodes2_of_decodeF2 {n : Nat} {mk : Operand → Operand → Instr}
    (h : ∀ ws, decodeWords (BitVec.ofNat 16 n :: ws) = decodeF2 mk ws) : Claims.Encodes2 n mk := by
  intro wa wb a b rest ha hb
  simp only [h, decodeF2, takeOperand_valid ha, takeOperand_valid hb]

end Sys2Proof

namespace Sys2Proof.Machine

/-! ## Instructions that only write a result (R82, R83, R85) -/

section
variable {i : Instr} {s : State} {len : Nat} {v : Word}

/-- R85: a register destination gets all 16 bits of the result. -/
theorem writesRegister_of_writeResult {d : RegId}
    (h : exec i s = writeResult (BitVec.ofNat 16 len) (.reg d) v s) : Claims.WritesRegister i s len d v.toNat := by
  rw [writeResult, setOp_register] at h
  exact ⟨_, h, by rw [setReg_reg_self], by rw [setReg_ip, advance_ip], sameExcept_setReg s _ d v⟩

/-- R85: a literal destination faults with its own value, whatever the result is. -/
theorem onlyFaults_of_writeResult {l : Word}
    (h : exec i s = writeResult (BitVec.ofNat 16 len) (.lit l) v s) :
    Claims.OnlyFaults i s len (.invalidWrite l) := by
  rw [writeResult, setOp_literal] at h
  exact ⟨_, h, faulted_raise _ _ _, by rw [raise_ip, advance_ip], sameExcept_raise s _ _ _⟩

end

/-! ## Set (R110) -/

theorem encodes2_set : Claims.Encodes2 1 .set := encodes2_of_decodeF2 fun _ => rfl

theorem exec_set (a b : Operand) (s : State) : exec (.set a b) s = writeResult 3#16 a (s.getOp b) s := rfl

/-- Settles O18: Set only writes a result, and the result is its source. -/
theorem setCopiesItsSource : Obligations.SetCopiesItsSource :=
  ⟨encodes2_set, fun d b s => writesRegister_of_writeResult (exec_set (.reg d) b s),
    fun l b s => onlyFaults_of_writeResult (exec_set (.lit l) b s)⟩

end Sys2Proof.Machine
end

section
/-! PROOFS. The facts of 44_control_transfer.md: Jmp (R130), and the conditional jumps Jt (R131) and Jf (R132) as the
two arms of one test. -/

namespace Sys2Proof

/-- R68: the operand of an F1 instruction is its operand word. -/
theorem encodes1_of_decodeF1 {n : Nat} {mk : Operand → Instr}
    (h : ∀ ws, decodeWords (BitVec.ofNat 16 n :: ws) = decodeF1 mk ws) : Claims.Encodes1 n mk := by
  intro wa a rest ha
  simp only [h, decodeF1, takeOperand_valid ha]

end Sys2Proof

namespace Sys2Proof.Machine

/-! ## The `ip` write of a control transfer (R87, R135) -/

/-- R82: the target overwrites the `ip` update made before execute. -/
@[simp] theorem jump_advance (s : State) (len target : Word) : (s.advance len).jump target = s.jump target := rfl

@[simp] theorem jump_self (s : State) : s.jump s.ip = s := rfl

/-- R135: a transfer writes `ip` and has no other effect. -/
theorem sameExcept_jump (s : State) (target : Word) : SameExcept [.ip] s (s.jump target) := by
  simp [SameExcept]

/-! ## Jmp (R130) -/

theorem encodes1_jmp : Claims.Encodes1 6 .jmp := encodes1_of_decodeF1 fun _ => rfl

theorem exec_jmp (a : Operand) (s : State) : exec (.jmp a) s = .next (s.jump (s.getOp a)) := rfl

/-- Settles O23: Jmp is one `ip` write, and writing `ip` to itself gives the same state. -/
theorem jmpGoesToItsTarget : Obligations.JmpGoesToItsTarget := by
  refine ⟨encodes1_jmp, fun a s => ⟨_, exec_jmp a s, jump_ip s _, sameExcept_jump s _⟩,
    fun s rest hfetch hd => ?selfJump⟩
  case selfJump => rw [step_of_decodeWords hfetch hd, exec_jmp, getOp_literal, jump_self]

/-! ## Jt (R131) and Jf (R132) -/

theorem encodes2_jt : Claims.Encodes2 7 .jt := encodes2_of_decodeF2 fun _ => rfl

theorem encodes2_jf : Claims.Encodes2 8 .jf := encodes2_of_decodeF2 fun _ => rfl

section
variable {a : Operand} (b : Operand) {s : State}

theorem exec_jt_of_nonzero (h : s.getOp a ≠ 0#16) : exec (.jt a b) s = .next (s.jump (s.getOp b)) := by
  simp [exec, execJt, h]

theorem exec_jt_of_zero (h : s.getOp a = 0#16) : exec (.jt a b) s = .next (s.advance 3#16) := by
  simp [exec, execJt, h]

theorem exec_jf_of_zero (h : s.getOp a = 0#16) : exec (.jf a b) s = .next (s.jump (s.getOp b)) := by
  simp [exec, execJf, h]

theorem exec_jf_of_nonzero (h : s.getOp a ≠ 0#16) : exec (.jf a b) s = .next (s.advance 3#16) := by
  simp [exec, execJf, h]

/-- R132: with the same operands, one of Jt and Jf takes its jump and the other goes on to the next instruction. -/
theorem exec_jt_jf_complementary {t u : State} (ht : exec (.jt a b) s = .next t) (hu : exec (.jf a b) s = .next u) :
    (t.ip = s.getOp b ∧ u.ip = s.ip + 3#16) ∨ (t.ip = s.ip + 3#16 ∧ u.ip = s.getOp b) := by
  by_cases h : s.getOp a = 0#16
  · cases (exec_jt_of_zero b h).symm.trans ht
    cases (exec_jf_of_zero b h).symm.trans hu
    exact .inr ⟨advance_ip s _, jump_ip s _⟩
  · cases (exec_jt_of_nonzero b h).symm.trans ht
    cases (exec_jf_of_nonzero b h).symm.trans hu
    exact .inl ⟨jump_ip s _, advance_ip s _⟩

end

/-- Settles O24: a nonzero condition leaves the jump's `ip` write, a zero one the `ip` update. -/
theorem jtJumpsIfNonzero : Obligations.JtJumpsIfNonzero :=
  ⟨encodes2_jt, fun _ b s h => ⟨_, exec_jt_of_nonzero b h, jump_ip s _, sameExcept_jump s _⟩,
    fun _ b s h => ⟨_, exec_jt_of_zero b h, advance_ip s _, sameExcept_advance s _⟩⟩

/-- Settles O25: Jf has the two arms of Jt exchanged. -/
theorem jfJumpsIfZero : Obligations.JfJumpsIfZero :=
  ⟨encodes2_jf, fun _ b s h => ⟨_, exec_jf_of_zero b h, jump_ip s _, sameExcept_jump s _⟩,
    fun _ b s h => ⟨_, exec_jf_of_nonzero b h, advance_ip s _, sameExcept_advance s _⟩,
    fun _ b _ _ _ => exec_jt_jf_complementary b⟩

end Sys2Proof.Machine
end

section
/-! PROOFS. The facts of 45_arith_logic.md: Add (R150), Mult (R151), And (R153) and Or (R154) as one shape with four
operations of the arithmetic logic unit, and Not (R155). -/

namespace Sys2Proof

/-- R68: the operands of an F3 instruction are its three operand words, in order. -/
theorem encodes3_of_decodeF3 {n : Nat} {mk : Operand → Operand → Operand → Instr}
    (h : ∀ ws, decodeWords (BitVec.ofNat 16 n :: ws) = decodeF3 mk ws) : Claims.Encodes3 n mk := by
  intro wa wb wc a b c rest ha hb hc
  simp only [h, decodeF3, takeOperand_valid ha, takeOperand_valid hb, takeOperand_valid hc]

end Sys2Proof

namespace Sys2Proof.Machine

/-! ## Instructions that only write the result of a binary operation (R83, R84, R85) -/

section
variable {mk : Operand → Operand → Operand → Instr} {f : Word → Word → Word} {r : Word → Word → Nat}
  (hexec : ∀ a b c s, exec (mk a b c) s = writeResult 4#16 a (f (s.getOp b) (s.getOp c)) s)
include hexec

/-- The register gets the number `r` that the operation's value is. -/
theorem writesRegister_of_binaryOp (hf : ∀ x y, (f x y).toNat = r x y) (d : RegId) (b c : Operand) (s : State) :
    Claims.WritesRegister (mk (.reg d) b c) s 4 d (r (s.getOp b) (s.getOp c)) := by
  rw [← hf]
  exact writesRegister_of_writeResult (hexec (.reg d) b c s)

theorem onlyFaults_of_binaryOp (l : Word) (b c : Operand) (s : State) :
    Claims.OnlyFaults (mk (.lit l) b c) s 4 (.invalidWrite l) :=
  onlyFaults_of_writeResult (hexec (.lit l) b c s)

end

/-! ## Add (R150) -/

theorem encodes3_add : Claims.Encodes3 9 .add := encodes3_of_decodeF3 fun _ => rfl

theorem exec_add (a b c : Operand) (s : State) :
    exec (.add a b c) s = writeResult 4#16 a (aluAdd (s.getOp b) (s.getOp c)) s := rfl

/-- Settles O28: the result is the exact sum, reduced once. -/
theorem addWritesSumModulo : Obligations.AddWritesSumModulo :=
  ⟨encodes3_add, writesRegister_of_binaryOp exec_add toNat_aluAdd, onlyFaults_of_binaryOp exec_add⟩

/-! ## Mult (R151) -/

theorem encodes3_mult : Claims.Encodes3 10 .mult := encodes3_of_decodeF3 fun _ => rfl

theorem exec_mult (a b c : Operand) (s : State) :
    exec (.mult a b c) s = writeResult 4#16 a (aluMult (s.getOp b) (s.getOp c)) s := rfl

/-- Settles O29: the result is the exact product, reduced once. -/
theorem multWritesProductModulo : Obligations.MultWritesProductModulo :=
  ⟨encodes3_mult, writesRegister_of_binaryOp exec_mult toNat_aluMult, onlyFaults_of_binaryOp exec_mult⟩

/-! ## And (R153) and Or (R154) -/

theorem encodes3_and : Claims.Encodes3 12 .and := encodes3_of_decodeF3 fun _ => rfl

theorem exec_and (a b c : Operand) (s : State) :
    exec (.and a b c) s = writeResult 4#16 a (aluAnd (s.getOp b) (s.getOp c)) s := rfl

/-- Settles O31: the result is the and of all 16 bits. -/
theorem andWritesBitwiseAnd : Obligations.AndWritesBitwiseAnd :=
  ⟨encodes3_and, writesRegister_of_binaryOp exec_and toNat_aluAnd, onlyFaults_of_binaryOp exec_and⟩

theorem encodes3_or : Claims.Encodes3 13 .or := encodes3_of_decodeF3 fun _ => rfl

theorem exec_or (a b c : Operand) (s : State) :
    exec (.or a b c) s = writeResult 4#16 a (aluOr (s.getOp b) (s.getOp c)) s := rfl

/-- Settles O32: the result is the or of all 16 bits. -/
theorem orWritesBitwiseOr : Obligations.OrWritesBitwiseOr :=
  ⟨encodes3_or, writesRegister_of_binaryOp exec_or toNat_aluOr, onlyFaults_of_binaryOp exec_or⟩

/-! ## Not (R155) -/

theorem encodes2_not : Claims.Encodes2 14 .not := encodes2_of_decodeF2 fun _ => rfl

theorem exec_not (a b : Operand) (s : State) :
    exec (.not a b) s = writeResult 3#16 a (aluNot (s.getOp b)) s := rfl

/-- Settles O33: the complement masked to 15 bits is R155's subtraction, whatever bit 15 of the source is. -/
theorem notWritesComplement : Obligations.NotWritesComplement := by
  refine ⟨encodes2_not, fun d b s => ?register, fun l b s => onlyFaults_of_writeResult (exec_not (.lit l) b s)⟩
  case register =>
    rw [← toNat_aluNot]
    exact writesRegister_of_writeResult (exec_not (.reg d) b s)

end Sys2Proof.Machine
end

section
/-! PROOFS. The facts of 46_memory_access.md: WMem (R171) as a store where the address exists and a memory fault where
it does not. -/

namespace Sys2Proof.Machine

/-! ## The store (R43) -/

/-- R43: after the `ip` update, a store changes only the cell it addresses. -/
theorem sameExcept_setMem_write {s : State} (hwf : s.mem.wf = true) (len : Word) (x : Nat) (v : Word) :
    SameExcept [.cell x, .ip] s ((s.advance len).setMem (s.mem.write x v)) := by
  have hother : ∀ y, y ≠ x → (s.mem.write x v).read y = s.mem.read y := fun y hy => by
    rw [read_write hwf, if_neg hy]
  simpa [SameExcept] using hother

/-- R204: of a fault just raised, the fault register names no other kind. -/
theorem faulted_raise_iff {s : State} {p : Word} {k l : FaultKind} : Faulted l (s.raise p k) ↔ k = l := by
  simp [Faulted]

theorem not_faulted_of_fault_none {t : State} (h : t.fault = none) (k : FaultKind) : ¬ Faulted k t := by
  simp [Faulted, h]

/-! ## WMem (R171) -/

theorem encodes2_wmem : Claims.Encodes2 16 .wmem := encodes2_of_decodeF2 fun _ => rfl

section
variable {a : Operand} (b : Operand) {s : State}

theorem exec_wmem_inside (h : (s.getOp a).toNat ≤ 32767) :
    exec (.wmem a b) s = .next ((s.advance 3#16).setMem (s.mem.write (s.getOp a).toNat (s.getOp b))) := by
  simp only [exec, execWmem, memWrite_inside h]

theorem exec_wmem_outside (h : 32767 < (s.getOp a).toNat) :
    exec (.wmem a b) s =
      .next ((s.advance 3#16).raise s.ip (.memoryOutOfBounds .write (s.getOp a) 32767#16)) := by
  simp only [exec, execWmem, memWrite_outside h]

/-- R171: neither operand is a destination, so the only fault WMem can raise is the memory fault. -/
theorem exec_wmem_not_invalidWrite {t : State} (hs : s.fault = none) (ht : exec (.wmem a b) s = .next t) (l : Word) :
    ¬ Faulted (.invalidWrite l) t := by
  by_cases h : (s.getOp a).toNat ≤ 32767
  · cases (exec_wmem_inside b h).symm.trans ht
    exact not_faulted_of_fault_none hs _
  · cases (exec_wmem_outside b (Nat.lt_of_not_le h)).symm.trans ht
    intro hfault
    cases faulted_raise_iff.mp hfault

end

/-- Settles O36: the address decides between a store and the memory fault, whatever the forms of the operands. -/
theorem wMemStoresTheWord : Obligations.WMemStoresTheWord := by
  refine ⟨encodes2_wmem, fun a b s hwf h => ?store, fun a b s h => ?fault,
    fun _ b _ _ l hs ht => exec_wmem_not_invalidWrite b hs ht l⟩
  case store =>
    have hread : (s.mem.write (s.getOp a).toNat (s.getOp b)).read (s.getOp a).toNat = s.getOp b := by
      rw [read_write hwf, if_pos rfl]
    exact ⟨_, exec_wmem_inside b h, hread, rfl, sameExcept_setMem_write hwf _ _ _⟩
  case fault => exact ⟨_, exec_wmem_outside b h, faulted_raise _ _ _, rfl, sameExcept_raise s _ _ _⟩

end Sys2Proof.Machine
end

section
/-! PROOFS. The facts of 30_encoding.md: the encoder and the decoder are each other's inverse (R60 to R68, R72), format
by format (R62). -/

namespace Sys2Proof

/-! ## Decoding what was encoded (R60, R67) -/

section
variable {a b c : Operand} (rest : List Word)

theorem decodeF1_words (mk : Operand → Instr) (ha : a.wf = true) :
    decodeF1 mk (a.word :: rest) = .ok (mk a, rest) := by
  simp only [decodeF1, takeOperand_word ha]

theorem decodeF2_words (mk : Operand → Operand → Instr) (ha : a.wf = true) (hb : b.wf = true) :
    decodeF2 mk (a.word :: b.word :: rest) = .ok (mk a b, rest) := by
  simp only [decodeF2, takeOperand_word ha, takeOperand_word hb]

theorem decodeF3_words (mk : Operand → Operand → Operand → Instr) (ha : a.wf = true) (hb : b.wf = true)
    (hc : c.wf = true) : decodeF3 mk (a.word :: b.word :: c.word :: rest) = .ok (mk a b c, rest) := by
  simp only [decodeF3, takeOperand_word ha, takeOperand_word hb, takeOperand_word hc]

end

/-- An instruction is well formed when each of its operands is. -/
theorem wf_iff (i : Instr) : i.wf = true ↔ ∀ op ∈ i.operands, op.wf = true := List.all_eq_true

/-- Settles O1: the opcode word selects the format, which takes back the operand words in order. -/
theorem decodeInvertsEncode : Obligations.DecodeInvertsEncode := by
  intro i rest h
  rw [wf_iff] at h
  cases i with
  | halt | ret | noop => rfl
  | push a | pop a | jmp a | call a | out a | inp a =>
    exact decodeF1_words rest _ (h a (by simp [Instr.operands]))
  | set a b | jt a b | jf a b | not a b | rmem a b | wmem a b =>
    exact decodeF2_words rest _ (h a (by simp [Instr.operands])) (h b (by simp [Instr.operands]))
  | eq a b c | gt a b c | add a b c | mult a b c | mod a b c | and a b c | or a b c =>
    exact decodeF3_words rest _ (h a (by simp [Instr.operands])) (h b (by simp [Instr.operands]))
      (h c (by simp [Instr.operands]))

/-! ## What decodes is an encoding (R61, R66, R72) -/

/-- The words are the encoding of a well-formed instruction, then the rest. -/
def EncodedThen (ws : List Word) (i : Instr) (rest : List Word) : Prop := ws = encode i ++ rest ∧ i.wf = true

section
variable {w : Word} {ws rest : List Word} {i : Instr}

theorem encodedThen_of_decodeF1 {mk : Operand → Instr} (hw : ∀ a, encode (mk a) = [w, a.word])
    (hops : ∀ a, (mk a).operands = [a]) (h : decodeF1 mk ws = .ok (i, rest)) : EncodedThen (w :: ws) i rest := by
  obtain ⟨a, rfl, rfl, ha⟩ := decodeF1_ok h
  exact ⟨by rw [hw]; rfl, by simp [wf_iff, hops, ha]⟩

theorem encodedThen_of_decodeF2 {mk : Operand → Operand → Instr} (hw : ∀ a b, encode (mk a b) = [w, a.word, b.word])
    (hops : ∀ a b, (mk a b).operands = [a, b]) (h : decodeF2 mk ws = .ok (i, rest)) :
    EncodedThen (w :: ws) i rest := by
  obtain ⟨a, b, rfl, rfl, ha, hb⟩ := decodeF2_ok h
  exact ⟨by rw [hw]; rfl, by simp [wf_iff, hops, ha, hb]⟩

theorem encodedThen_of_decodeF3 {mk : Operand → Operand → Operand → Instr}
    (hw : ∀ a b c, encode (mk a b c) = [w, a.word, b.word, c.word])
    (hops : ∀ a b c, (mk a b c).operands = [a, b, c]) (h : decodeF3 mk ws = .ok (i, rest)) :
    EncodedThen (w :: ws) i rest := by
  obtain ⟨a, b, c, rfl, rfl, ha, hb, hc⟩ := decodeF3_ok h
  exact ⟨by rw [hw]; rfl, by simp [wf_iff, hops, ha, hb, hc]⟩

/-- Every row of the opcode map (R64), each by its format. -/
theorem encodedThen_of_decodeWords (h : decodeWords (w :: ws) = .ok (i, rest)) : EncodedThen (w :: ws) i rest := by
  have hle := opcode_le_of_decodeWords h
  obtain ⟨n, hn⟩ : ∃ n, w.toNat = n := ⟨_, rfl⟩
  obtain rfl : w = BitVec.ofNat 16 n := by rw [← hn, BitVec.ofNat_toNat, BitVec.setWidth_eq]
  rw [hn] at hle
  clear hn
  match n, hle with
  | 0, _ | 18, _ | 21, _ => cases h; exact ⟨rfl, rfl⟩
  | 2, _ | 3, _ | 6, _ | 17, _ | 19, _ | 20, _ => exact encodedThen_of_decodeF1 (fun _ => rfl) (fun _ => rfl) h
  | 1, _ | 7, _ | 8, _ | 14, _ | 15, _ | 16, _ =>
    exact encodedThen_of_decodeF2 (fun _ _ => rfl) (fun _ _ => rfl) h
  | 4, _ | 5, _ | 9, _ | 10, _ | 11, _ | 12, _ | 13, _ =>
    exact encodedThen_of_decodeF3 (fun _ _ _ => rfl) (fun _ _ _ => rfl) h
  | k + 22, hle => omega

end

/-- Settles O2: the first word is an opcode word of the map, and its format reads the rest of the encoding. -/
theorem decodedWordsAreTheEncoding : Obligations.DecodedWordsAreTheEncoding := by
  intro ws rest i h
  cases ws with
  | nil => cases h
  | cons w ws => exact encodedThen_of_decodeWords h

/-- Settles O3: the decoder runs on the source's own words. -/
theorem sourceExamplesDecode : Obligations.SourceExamplesDecode := by
  unfold Obligations.SourceExamplesDecode
  decide

/-! ## The first operand word that cannot be taken (R68, R70, R73) -/

/-- A word up to 32775 is some operand (R66). -/
theorem exists_classify_ok {w : Word} (h : w.toNat ≤ 32775) : ∃ op, classify w = .ok op := by
  cases hc : classify w with
  | ok op => exact ⟨op, rfl⟩
  | error e =>
    obtain ⟨hw, -⟩ := classify_error hc
    omega

theorem specLength_le (n : Nat) : Claims.specLength n ≤ 4 := by
  unfold Claims.specLength
  split_ifs <;> omega

/-- R68, R73: operand words are taken in order, so after `before`, each of which is an operand word, decoding ends as
taking the next one does. -/
theorem decodeWords_of_takeOperand_error {n : Word} {before ws : List Word} {e : DecodeReject} (hn : n.toNat ≤ 21)
    (hlen : before.length + 1 < Claims.specLength n.toNat) (hbefore : ∀ w ∈ before, w.toNat ≤ 32775)
    (he : takeOperand (before.length + 1) ws = .error e) : decodeWords (n :: (before ++ ws)) = .error e := by
  match before, hlen, hbefore, he with
  | [], hlen, _, he =>
    change takeOperand 1 ws = .error e at he
    cases opcodeFormat_of_le hn with
    | f0 _ len => simp [len] at hlen
    | f1 _ _ _ dec => simp only [dec, decodeF1, List.nil_append, he]
    | f2 _ _ _ dec => simp only [dec, decodeF2, List.nil_append, he]
    | f3 _ _ _ dec => simp only [dec, decodeF3, List.nil_append, he]
  | [wa], hlen, hbefore, he =>
    change takeOperand 2 ws = .error e at he
    obtain ⟨a, ha⟩ := exists_classify_ok (hbefore wa (by simp))
    cases opcodeFormat_of_le hn with
    | f0 _ len | f1 _ len => simp [len] at hlen
    | f2 _ _ _ dec => simp only [dec, decodeF2, List.cons_append, List.nil_append, takeOperand_valid ha, he]
    | f3 _ _ _ dec => simp only [dec, decodeF3, List.cons_append, List.nil_append, takeOperand_valid ha, he]
  | [wa, wb], hlen, hbefore, he =>
    change takeOperand 3 ws = .error e at he
    obtain ⟨a, ha⟩ := exists_classify_ok (hbefore wa (by simp))
    obtain ⟨b, hb⟩ := exists_classify_ok (hbefore wb (by simp))
    cases opcodeFormat_of_le hn with
    | f0 _ len | f1 _ len | f2 _ len => simp [len] at hlen
    | f3 _ _ _ dec =>
      simp only [dec, decodeF3, List.cons_append, List.nil_append, takeOperand_valid ha, takeOperand_valid hb, he]
  | _ :: _ :: _ :: _, hlen, _, _ =>
    have hle := specLength_le n.toNat
    simp only [List.length_cons] at hlen
    omega

end Sys2Proof
end

section
/-! PROOFS. The facts of 20_memory.md and 40_execution_cycle.md: what a fetch reads (R73), that decoding needs no other
word (R90), and the first decode fault in order (R202). -/

namespace Sys2Proof.Machine

/-! ## The words at an address (R40, R54, R73) -/

/-- Settles O9: at an address of memory the cells from it on, and above 32767 nothing. -/
theorem fetchedWordsAreTheCells : Obligations.FetchedWordsAreTheCells := by
  intro m p k
  by_cases hp : p.toNat ≤ 32767
  · exact wordsFrom_getElem? hp 4 k
  · rw [fetchWords, wordsFrom_outside (by omega), if_neg (by omega)]
    rfl

theorem length_fetchWords {m : Memory} {p : Word} (hp : p.toNat ≤ 32767) :
    (fetchWords m p).length = min 4 (32768 - p.toNat) := length_wordsFrom hp 4

/-- Settles O39: the fetch reads the cell that WMem wrote. -/
theorem writtenCodeIsFetched : Obligations.WrittenCodeIsFetched := by
  intro s t a b p k hwf h hin hk haddr
  obtain rfl : (s.advance 3#16).setMem (s.mem.write (s.getOp a).toNat (s.getOp b)) = t :=
    Host.Outcome.next.inj ((exec_wmem_inside b (by omega)).symm.trans h)
  rw [setMem_mem, fetchedWordsAreTheCells, if_pos ⟨hk, hin⟩, read_write hwf, if_pos haddr.symm]

/-! ## Decoding reads the instruction's own words (R90) -/

theorem length_encode (i : Instr) : (encode i).length = i.length := by
  simp [encode, Instr.length, Nat.add_comm]

/-- An instruction fetched at `p`: it is well formed, and its encoding stands at `p`. -/
theorem fetchDecode_encode {m : Memory} {p : Word} {i : Instr} (h : fetchDecode m p = .ok i) :
    i.wf = true ∧ ∃ rest, fetchWords m p = encode i ++ rest := by
  obtain ⟨rest, hd⟩ := fetchDecode_ok h
  obtain ⟨hws, hwf⟩ := decodedWordsAreTheEncoding _ _ _ hd
  exact ⟨hwf, rest, hws⟩

theorem fetchDecode_of_encode {m : Memory} {p : Word} {i : Instr} {rest : List Word} (hwf : i.wf = true)
    (h : fetchWords m p = encode i ++ rest) : fetchDecode m p = .ok i := by
  rw [fetchDecode, h, decodeInvertsEncode i rest hwf]

/-- R82: an instruction that was decoded lies wholly inside memory. -/
theorem fetchDecode_inside {m : Memory} {p : Word} {i : Instr} (h : fetchDecode m p = .ok i) :
    p.toNat + i.length ≤ 32768 := by
  obtain ⟨-, rest, hws⟩ := fetchDecode_encode h
  have hlen : i.length ≤ (fetchWords m p).length := by simp [hws, length_encode]
  have hpos : 1 ≤ i.length := by simp [Instr.length]
  by_cases hp : p.toNat ≤ 32767
  · rw [length_fetchWords hp] at hlen
    omega
  · rw [fetchWords, wordsFrom_outside (by omega), List.length_nil] at hlen
    omega

/-- Memories with the same cells at the first words of a fetch are fetched alike there. -/
theorem take_fetchWords_congr {m m' : Memory} {p : Word} {n : Nat}
    (h : ∀ k, k < n → m'.read (p.toNat + k) = m.read (p.toNat + k)) :
    (fetchWords m' p).take n = (fetchWords m p).take n := by
  refine List.ext_getElem? fun k => ?_
  simp only [List.getElem?_take]
  split
  · next hk => rw [fetchedWordsAreTheCells, fetchedWordsAreTheCells, h k hk]
  · rfl

/-- Settles O12: the encoding at `p` is there in the other memory as well. -/
theorem decodingReadsOnlyItsWords : Obligations.DecodingReadsOnlyItsWords := by
  intro m m' p i h
  refine ⟨fetchDecode_inside h, fun hcells => ?_⟩
  obtain ⟨hwf, rest, hws⟩ := fetchDecode_encode h
  have htake : (fetchWords m' p).take i.length = encode i := by
    rw [take_fetchWords_congr hcells, hws, ← length_encode, List.take_left]
  refine fetchDecode_of_encode (rest := (fetchWords m' p).drop i.length) hwf ?_
  rw [← htake, List.take_append_drop]

/-- Settles O8: no other instruction and no other effect stands in the step. -/
theorem stepRunsDecodedInstruction : Obligations.StepRunsDecodedInstruction :=
  fun _ _ _ => step_of_decodeWords

/-! ## The first decode fault in order (R81, R202) -/

section
variable {s : State} (hs : Claims.Fetching s)
include hs

theorem stepOnlyFaults_of_decodeWords_error {e : DecodeReject}
    (hd : decodeWords (fetchWords s.mem s.ip) = .error e) :
    Claims.StepOnlyFaults s (DecodeReject.toFault s.ip e) :=
  ⟨_, step_of_decodeWords_error hs hd, rfl, sameExcept_raise_only s s.ip _⟩

/-- R202 (1): the opcode word lies outside memory. -/
theorem stepOnlyFaults_opcode_outside (hip : 32767 < s.ip.toNat) :
    Claims.StepOnlyFaults s (.memoryOutOfBounds .read s.ip 32767#16) :=
  ⟨_, step_of_fetch_outside hs hip, rfl, sameExcept_raise_only s s.ip _⟩

/-- R202 (2): the opcode word is no opcode. -/
theorem stepOnlyFaults_opcode_invalid (hip : s.ip.toNat ≤ 32767) (hop : 22 ≤ (s.mem.read s.ip.toNat).toNat) :
    Claims.StepOnlyFaults s (.invalidOpcode (s.mem.read s.ip.toNat)) := by
  refine stepOnlyFaults_of_decodeWords_error (e := .invalidOpcode _) hs ?_
  rw [fetchWords_inside s.mem hip, decodeWords_unknown hop]

/-- R202 (3): after operand words that can be taken, how taking word `k` ends is how the step ends. -/
theorem stepOnlyFaults_operand {k : Nat} {e : DecodeReject} (hip : s.ip.toNat ≤ 32767)
    (hop : (s.mem.read s.ip.toNat).toNat ≤ 21) (hlen : k + 1 < Claims.specLength (s.mem.read s.ip.toNat).toNat)
    (hbefore : ∀ j : Nat, 1 ≤ j → j < k + 1 → s.ip.toNat + j ≤ 32767 ∧ (s.mem.read (s.ip.toNat + j)).toNat ≤ 32775)
    (he : takeOperand (k + 1) ((fetchWords s.mem s.ip).drop (k + 1)) = .error e) :
    Claims.StepOnlyFaults s (DecodeReject.toFault s.ip e) := by
  have hle := specLength_le (s.mem.read s.ip.toNat).toNat
  have hlast : s.ip.toNat + k ≤ 32767 := by
    rcases Nat.eq_zero_or_pos k with rfl | hk
    · exact hip
    · exact (hbefore k hk (by omega)).1
  obtain ⟨ws, hws⟩ : ∃ ws, fetchWords s.mem s.ip = s.mem.read s.ip.toNat :: ws := ⟨_, fetchWords_inside s.mem hip⟩
  have hcount : (ws.take k).length = k := by
    have := length_fetchWords (m := s.mem) hip
    rw [hws, List.length_cons] at this
    rw [List.length_take]
    omega
  have hvalid : ∀ w ∈ ws.take k, w.toNat ≤ 32775 := by
    intro w hw
    obtain ⟨j, hj, rfl⟩ := List.mem_take_iff_getElem.mp hw
    obtain ⟨hjk, hjlen⟩ := Nat.lt_min.mp hj
    have hcell := fetchedWordsAreTheCells s.mem s.ip (j + 1)
    obtain ⟨hin, hword⟩ := hbefore (j + 1) (by omega) (by omega)
    rw [hws, List.getElem?_cons_succ, List.getElem?_eq_getElem hjlen, if_pos ⟨by omega, hin⟩,
      Option.some_inj] at hcell
    rwa [hcell]
  refine stepOnlyFaults_of_decodeWords_error hs ?_
  rw [hws, List.drop_succ_cons] at he
  rw [hws, ← List.take_append_drop k ws]
  exact decodeWords_of_takeOperand_error hop (by rwa [hcount]) hvalid (by rwa [hcount])

end

/-- Past the last cell, there is no word to take. -/
theorem takeOperand_fetchWords_outside {m : Memory} {p : Word} {k : Nat} (hp : p.toNat ≤ 32767)
    (hk : 32767 < p.toNat + k) : takeOperand k ((fetchWords m p).drop k) = .error (.missingWord k) := by
  have hnil : (fetchWords m p).drop k = [] := by
    rw [List.drop_eq_nil_iff, length_fetchWords hp]
    omega
  rw [hnil]
  rfl

/-- Up to the last cell, the word to take is the cell. -/
theorem takeOperand_fetchWords_invalid {m : Memory} {p : Word} {k : Nat} (hk : k < 4) (hin : p.toNat + k ≤ 32767)
    (h : 32776 ≤ (m.read (p.toNat + k)).toNat) :
    takeOperand k ((fetchWords m p).drop k) = .error (.invalidOperand (m.read (p.toNat + k))) := by
  have hcell : (fetchWords m p)[k]? = some (m.read (p.toNat + k)) := by
    rw [fetchedWordsAreTheCells, if_pos ⟨hk, hin⟩]
  obtain ⟨hlt, hget⟩ := List.getElem?_eq_some_iff.mp hcell
  rw [List.drop_eq_getElem_cons hlt, hget, takeOperand_invalid h]

/-- R73: the fault of a missing word names its address, which does not wrap. -/
theorem toFault_missingWord (p : Word) (k : Nat) :
    DecodeReject.toFault p (.missingWord k) = .memoryOutOfBounds .read (BitVec.ofNat 16 (p.toNat + k)) 32767#16 := by
  simp [DecodeReject.toFault, memAddrMax, BitVec.ofNat_add]

/-- Settles O11: the opcode word first, then each operand word in turn, outside memory or invalid. -/
theorem decodeFaultsInOrder : Obligations.DecodeFaultsInOrder := by
  intro s hs
  refine ⟨stepOnlyFaults_opcode_outside hs, stepOnlyFaults_opcode_invalid hs, fun hip hop k hk hlen hbefore => ?_⟩
  have hle := specLength_le (s.mem.read s.ip.toNat).toNat
  obtain ⟨k, rfl⟩ := Nat.exists_eq_add_of_le' hk
  refine ⟨fun hout => ?outside, fun hin hword => ?invalid⟩
  case outside =>
    rw [← toFault_missingWord]
    exact stepOnlyFaults_operand hs hip hop hlen hbefore (takeOperand_fetchWords_outside hip hout)
  case invalid =>
    exact stepOnlyFaults_operand hs hip hop hlen hbefore
      (takeOperand_fetchWords_invalid (by omega) hin hword)

end Sys2Proof.Machine
end

section
/-! PROOFS. The facts of 42_register_stack.md to 47_io.md: what the instructions that no part above speaks of do, each
from the answers its meaning can give. -/

namespace Sys2Proof.Machine

/-! ## Comparisons (R120, R121) -/

theorem encodes3_eq : Claims.Encodes3 4 .eq := encodes3_of_decodeF3 fun _ => rfl

theorem exec_eq (a b c : Operand) (s : State) :
    exec (.eq a b c) s = writeResult 4#16 a (aluEq (s.getOp b) (s.getOp c)) s := rfl

/-- Settles O21: Eq is a binary operation with a truth value for its result. -/
theorem eqWritesZeroOrOne : Obligations.EqWritesZeroOrOne :=
  ⟨encodes3_eq, writesRegister_of_binaryOp exec_eq toNat_aluEq, onlyFaults_of_binaryOp exec_eq⟩

theorem encodes3_gt : Claims.Encodes3 5 .gt := encodes3_of_decodeF3 fun _ => rfl

theorem exec_gt (a b c : Operand) (s : State) :
    exec (.gt a b c) s = writeResult 4#16 a (aluGt (s.getOp b) (s.getOp c)) s := rfl

/-- Settles O22: Gt is a binary operation with a truth value for its result. -/
theorem gtWritesZeroOrOne : Obligations.GtWritesZeroOrOne :=
  ⟨encodes3_gt, writesRegister_of_binaryOp exec_gt toNat_aluGt, onlyFaults_of_binaryOp exec_gt⟩

/-! ## Execute faults (R202, R204) -/

/-- An instruction whose answer is a fault raised after the `ip` update does nothing else. -/
theorem onlyFaults_of_raise {i : Instr} {s : State} {len : Nat} {k : FaultKind}
    (h : exec i s = .next ((s.advance (BitVec.ofNat 16 len)).raise s.ip k)) : Claims.OnlyFaults i s len k :=
  ⟨_, h, faulted_raise _ _ _, rfl, sameExcept_raise s _ _ _⟩

/-! ## Push (R111) and Pop (R112) -/

theorem stackFull_of_room {s : State} (h : ∀ n, s.cfg.stackCapacity = .words n → s.stack.length < n) :
    s.stackFull = false := by
  refine Bool.eq_false_iff.mpr fun hfull => ?_
  obtain ⟨n, hn, hle⟩ := (stackFull_eq_true s).mp hfull
  have := h n hn
  omega

theorem stackFull_of_capacity {s : State} (h : s.cfg.stackCapacity = .words s.stack.length) : s.stackFull = true :=
  (stackFull_eq_true s).mpr ⟨_, h, le_rfl⟩

/-- A stack write and an `ip` write change nothing else. -/
theorem sameExcept_setStack_jump (s : State) (l : List Word) (target : Word) :
    SameExcept [.stack, .ip] s ((s.setStack l).jump target) := by
  simp [SameExcept]

theorem encodes1_push : Claims.Encodes1 2 .push := encodes1_of_decodeF1 fun _ => rfl

theorem exec_push_room (a : Operand) {s : State} (h : s.stackFull = false) :
    exec (.push a) s = .next ((s.setStack (s.stack ++ [s.getOp a])).jump (s.ip + 2#16)) := by
  rcases execPush_cases a s with ⟨-, e⟩ | ⟨hfull, -⟩
  · exact e
  · simp [h] at hfull

theorem exec_push_full (a : Operand) {s : State} (h : s.stackFull = true) :
    exec (.push a) s = .next ((s.advance 2#16).raise s.ip (.stackOverflow s.stack.length)) := by
  rcases execPush_cases a s with ⟨hroom, -⟩ | ⟨-, e⟩
  · simp [h] at hroom
  · exact e

/-- Settles O19: the capacity decides between one entry more and the fault. -/
theorem pushAppendsItsSource : Obligations.PushAppendsItsSource :=
  ⟨encodes1_push,
    fun a s h => ⟨_, exec_push_room a (stackFull_of_room h), rfl, rfl, sameExcept_setStack_jump s _ _⟩,
    fun a _ h => onlyFaults_of_raise (exec_push_full a (stackFull_of_capacity h))⟩

theorem encodes1_pop : Claims.Encodes1 3 .pop := encodes1_of_decodeF1 fun _ => rfl

theorem exec_pop_empty (a : Operand) {s : State} (h : s.stack = []) :
    exec (.pop a) s = .next ((s.advance 2#16).raise s.ip .stackUnderflow) := by
  have hpop : (s.advance 2#16).pop = none := pop_empty h
  simp only [exec, execPop, hpop]

theorem exec_pop_concat (a : Operand) {s : State} {l : List Word} {v : Word} (h : s.stack = l ++ [v]) :
    exec (.pop a) s = .next (((s.advance 2#16).setStack l).setOp s.ip a v) := by
  have hpop : (s.advance 2#16).pop = some (v, (s.advance 2#16).setStack l) := pop_concat h
  simp only [exec, execPop, hpop]

/-- Settles O20: the pop comes first, then the destination decides. -/
theorem popTakesTheTop : Obligations.PopTakesTheTop := by
  refine ⟨encodes1_pop, fun d s l v h => ?register, fun a s h => onlyFaults_of_raise (exec_pop_empty a h),
    fun x s l v h => ?literal⟩
  case register =>
    refine ⟨_, exec_pop_concat (.reg d) h, setReg_reg_self _ d v, rfl, rfl, fun j hj => ?_, by simp⟩
    have hdj : d ≠ j := by rintro rfl; simp at hj
    exact setReg_reg_of_ne _ v hdj
  case literal => exact ⟨_, exec_pop_concat (.lit x) h, faulted_raise _ _ _, rfl, rfl, by simp [SameExcept]⟩

/-! ## Call (R133) and Ret (R134) -/

theorem encodes1_call : Claims.Encodes1 17 .call := encodes1_of_decodeF1 fun _ => rfl

theorem exec_call_room (a : Operand) {s : State} (h : s.stackFull = false) :
    exec (.call a) s = .next ((s.setStack (s.stack ++ [s.ip + 2#16])).jump (s.getOp a)) := by
  rcases execCall_cases a s with ⟨-, e⟩ | ⟨hfull, -⟩
  · exact e
  · simp [h] at hfull

theorem exec_call_full (a : Operand) {s : State} (h : s.stackFull = true) :
    exec (.call a) s = .next ((s.advance 2#16).raise s.ip (.stackOverflow s.stack.length)) := by
  rcases execCall_cases a s with ⟨hroom, -⟩ | ⟨-, e⟩
  · simp [h] at hroom
  · exact e

theorem encodes0_ret : Claims.Encodes0 18 .ret := fun _ => rfl

theorem exec_ret_empty {s : State} (h : s.stack = []) : exec .ret s = .next (s.advance 1#16).halt := by
  have hpop : (s.advance 1#16).pop = none := pop_empty h
  simp only [exec, execRet, hpop]

theorem exec_ret_concat {s : State} {l : List Word} {v : Word} (h : s.stack = l ++ [v]) :
    exec .ret s = .next ((s.setStack l).jump v) := by
  have hpop : (s.advance 1#16).pop = some (v, (s.advance 1#16).setStack l) := pop_concat h
  simp only [exec, execRet, hpop]
  rfl

/-- A Call that did not fault left the address after it on top of the stack. -/
theorem stack_of_exec_call {a : Operand} {s t : State} (h : exec (.call a) s = .next t) (ht : t.fault = none) :
    t.stack = s.stack ++ [s.ip + 2#16] := by
  cases hfull : s.stackFull with
  | false =>
    cases (exec_call_room a hfull).symm.trans h
    rfl
  | true =>
    cases (exec_call_full a hfull).symm.trans h
    cases ht

/-- Settles O26: Call's push, and the Ret that pops what it pushed. -/
theorem callPushesReturnAddress : Obligations.CallPushesReturnAddress := by
  refine ⟨encodes1_call,
    fun a s h => ⟨_, exec_call_room a (stackFull_of_room h), rfl, rfl, sameExcept_setStack_jump s _ _⟩,
    fun a _ h => onlyFaults_of_raise (exec_call_full a (stackFull_of_capacity h)),
    fun a s t v hcall _ ht hv => ?roundTrip⟩
  case roundTrip => exact ⟨_, exec_ret_concat (hv.trans (stack_of_exec_call hcall ht)), rfl, rfl⟩

/-- Settles O27: the stack decides between a jump to its top and a halt. -/
theorem retReturnsOrHalts : Obligations.RetReturnsOrHalts :=
  ⟨encodes0_ret, fun s _ _ h => ⟨_, exec_ret_concat h, rfl, rfl, sameExcept_setStack_jump s _ _⟩,
    fun s h => ⟨_, exec_ret_empty h, rfl, rfl, sameExcept_halt s 1#16⟩⟩

/-! ## Mod (R152) -/

theorem encodes3_mod : Claims.Encodes3 11 .mod := encodes3_of_decodeF3 fun _ => rfl

theorem exec_mod_nonzero (a b : Operand) {c : Operand} {s : State} (h : s.getOp c ≠ 0#16) :
    ∃ v : Word, v.toNat = (s.getOp b).toNat % (s.getOp c).toNat ∧
      exec (.mod a b c) s = writeResult 4#16 a v s := by
  rcases execMod_cases a b c s with ⟨hzero, -⟩ | ⟨-, e⟩
  · exact absurd hzero h
  · exact e

theorem exec_mod_zero (a b : Operand) {c : Operand} {s : State} (h : s.getOp c = 0#16) :
    exec (.mod a b c) s = .next ((s.advance 4#16).raise s.ip .divisionByZero) := by
  rcases execMod_cases a b c s with ⟨-, e⟩ | ⟨hnonzero, -⟩
  · exact e
  · exact absurd h hnonzero

/-- Settles O30: the divisor decides before the destination does. -/
theorem modWritesRemainder : Obligations.ModWritesRemainder := by
  refine ⟨encodes3_mod, fun d b c s h => ?register, fun a b _ _ h => onlyFaults_of_raise (exec_mod_zero a b h),
    fun l b c s h => ?literal⟩
  case register =>
    obtain ⟨v, hv, e⟩ := exec_mod_nonzero (.reg d) b h
    rw [← hv]
    exact writesRegister_of_writeResult e
  case literal =>
    obtain ⟨v, -, e⟩ := exec_mod_nonzero (.lit l) b h
    exact onlyFaults_of_writeResult e

/-! ## Ranges of results (R156) -/

/-- The number that an instruction was shown to write is the one in its register. -/
theorem toNat_reg_of_writesRegister {i : Instr} {s t : State} {len v : Nat} {d : RegId}
    (hw : Claims.WritesRegister i s len d v) (h : exec i s = .next t) : (t.reg d).toNat = v := by
  obtain ⟨u, hu, hv, -⟩ := hw
  obtain rfl : u = t := Host.Outcome.next.inj (hu.symm.trans h)
  exact hv

/-- R154: the or of two numbers in 15 bits is in 15 bits. -/
theorem or_le_of_le {x y : Nat} (hx : x ≤ 32767) (hy : y ≤ 32767) : x ||| y ≤ 32767 :=
  Nat.le_of_lt_succ (Nat.or_lt_two_pow (n := 15) (Nat.lt_succ_of_le hx) (Nat.lt_succ_of_le hy))

/-- Settles O34: the number each instruction writes, by its own statement, and its bound. -/
theorem resultsStayInRange : Obligations.ResultsStayInRange := by
  obtain ⟨-, hadd, -⟩ := addWritesSumModulo
  obtain ⟨-, hmult, -⟩ := multWritesProductModulo
  obtain ⟨-, hnot, -⟩ := notWritesComplement
  obtain ⟨-, heq, -⟩ := eqWritesZeroOrOne
  obtain ⟨-, hgt, -⟩ := gtWritesZeroOrOne
  obtain ⟨-, hmod, -⟩ := modWritesRemainder
  obtain ⟨-, hand, -⟩ := andWritesBitwiseAnd
  obtain ⟨-, hor, -⟩ := orWritesBitwiseOr
  intro s t d b c
  refine ⟨fun h => ?_, fun h => ?_, fun h => ?_, fun h => ?_, fun h => ?_,
    fun hb hc => ⟨fun h hz => ?_, fun h => ?_, fun h => ?_⟩⟩
  · rw [toNat_reg_of_writesRegister (hadd d b c s) h]
    omega
  · rw [toNat_reg_of_writesRegister (hmult d b c s) h]
    exact Nat.le_of_lt_succ (Nat.mod_lt _ (by decide))
  · rw [toNat_reg_of_writesRegister (hnot d b s) h]
    omega
  · rw [toNat_reg_of_writesRegister (heq d b c s) h]
    split <;> omega
  · rw [toNat_reg_of_writesRegister (hgt d b c s) h]
    split <;> omega
  · rw [toNat_reg_of_writesRegister (hmod d b c s hz) h]
    exact (Nat.mod_le _ _).trans hb
  · rw [toNat_reg_of_writesRegister (hand d b c s) h]
    exact Nat.and_le_left.trans hb
  · rw [toNat_reg_of_writesRegister (hor d b c s) h]
    exact or_le_of_le hb hc

/-! ## Memory (R40 to R43) and RMem (R170) -/

/-- Settles O37: the bounds check of each access, and read after write. -/
theorem memoryInterfaceChecksBounds : Obligations.MemoryInterfaceChecksBounds :=
  fun _ addr v => ⟨memRead_inside, memRead_outside,
    fun h hwf => ⟨_, memWrite_inside h, wf_write hwf (Nat.lt_succ_of_le h), read_write hwf addr.toNat v⟩,
    memWrite_outside⟩

/-- Settles O38: above 32767 both memories read 0, so they read alike everywhere. -/
theorem memoryFormIsCanonical : Obligations.MemoryFormIsCanonical := by
  intro m n hm hn h
  refine eq_of_read_eq_from hm hn fun a => ?_
  by_cases ha : a ≤ 32767
  · exact h a ha
  · have hbeyond : memWords ≤ a := Nat.lt_of_not_le ha
    rw [read_beyond hm hbeyond, read_beyond hn hbeyond]

theorem encodes2_rmem : Claims.Encodes2 15 .rmem := encodes2_of_decodeF2 fun _ => rfl

theorem exec_rmem_inside (a : Operand) {b : Operand} {s : State} (h : (s.getOp b).toNat ≤ 32767) :
    exec (.rmem a b) s = writeResult 3#16 a (s.mem.read (s.getOp b).toNat) s := by
  simp only [exec, execRmem, memRead_inside h]

theorem exec_rmem_outside (a : Operand) {b : Operand} {s : State} (h : 32767 < (s.getOp b).toNat) :
    exec (.rmem a b) s =
      .next ((s.advance 3#16).raise s.ip (.memoryOutOfBounds .read (s.getOp b) 32767#16)) := by
  simp only [exec, execRmem, memRead_outside h]

/-- Settles O35: the address decides before the destination does. -/
theorem rMemCopiesTheCell : Obligations.RMemCopiesTheCell :=
  ⟨encodes2_rmem, fun d _ _ h => writesRegister_of_writeResult (exec_rmem_inside (.reg d) h),
    fun a _ _ h => onlyFaults_of_raise (exec_rmem_outside a h),
    fun l _ _ h => onlyFaults_of_writeResult (exec_rmem_inside (.lit l) h)⟩

/-! ## Out (R180) -/

theorem encodes1_out : Claims.Encodes1 19 .out := encodes1_of_decodeF1 fun _ => rfl

theorem exec_out (a : Operand) (s : State) :
    exec (.out a) s = .next ((s.advance 2#16).outWrite ((s.getOp a).setWidth 8)) := rfl

/-- Settles O41: narrowing to a byte is the remainder by 256. -/
theorem outSendsTheLowByte : Obligations.OutSendsTheLowByte :=
  ⟨encodes1_out, fun a s =>
    ⟨_, exec_out a s, ⟨_, BitVec.toNat_setWidth 8 (s.getOp a), rfl⟩, rfl, by simp [SameExcept]⟩⟩

/-! ## In (R181) -/

theorem encodes1_inp : Claims.Encodes1 20 .inp := encodes1_of_decodeF1 fun _ => rfl

theorem exec_inp_unanswered (a : Operand) {s : State} (h : s.input = []) :
    exec (.inp a) s = .next ((s.advance 2#16).beginWait { dest := a, opAddr := s.ip }) := by
  have hread : (s.advance 2#16).inRead = none := inRead_none h
  simp only [exec, execIn, hread]

theorem exec_inp_answered (a : Operand) {s : State} {r : InputAnswer} {rest : List InputAnswer}
    (h : s.input = r :: rest) :
    exec (.inp a) s =
      .next (((s.advance 2#16).setInput rest).takeAnswer { dest := a, opAddr := s.ip } r) := by
  have hread : (s.advance 2#16).inRead = some (r, (s.advance 2#16).setInput rest) := inRead_cons h
  simp only [exec, execIn, hread]

/-- The byte goes zero-extended to the register. -/
theorem toNat_zeroExtend_byte (b : Byte) : (b.setWidth 16 : Word).toNat = b.toNat := by
  simp only [BitVec.toNat_setWidth]
  omega

/-- A fault raised once the answer was taken changes nothing else. -/
theorem sameExcept_setInput_raise (s : State) (rest : List InputAnswer) (len p : Word) (k : FaultKind) :
    SameExcept [.fault, .input, .ip] s (((s.advance len).setInput rest).raise p k) := by
  simp [SameExcept]

/-- Settles O42: the answer is taken first, then its kind and the destination decide. -/
theorem inTakesOneAnswer : Obligations.InTakesOneAnswer := by
  refine ⟨encodes1_inp, fun d s b rest h => ?register, fun l s b rest h => ?literal, fun a s rest h => ?closed,
    fun a s rest h => ?error⟩
  case register =>
    refine ⟨_, exec_inp_answered (.reg d) h, ?_, rfl, rfl, fun j hj => ?_, by simp⟩
    · rw [takeAnswer_byte, setOp_register, setReg_reg_self, toNat_zeroExtend_byte]
    · have hdj : d ≠ j := by rintro rfl; simp at hj
      exact setReg_reg_of_ne _ _ hdj
  case literal =>
    exact ⟨_, exec_inp_answered (.lit l) h, faulted_raise _ _ _, rfl, rfl, sameExcept_setInput_raise _ _ _ _ _⟩
  case closed =>
    exact ⟨_, exec_inp_answered a h, faulted_raise _ _ _, rfl, rfl, sameExcept_setInput_raise _ _ _ _ _⟩
  case error =>
    exact ⟨_, exec_inp_answered a h, faulted_raise _ _ _, rfl, rfl, sameExcept_setInput_raise _ _ _ _ _⟩

/-! ## The In that holds (R34, R89) -/

section
variable {s : State} {w : InWait} (hrun : s.runState = .running) (hw : s.inWait = some w)
include hrun hw

theorem step_of_inWait : step s = resumeIn w s := by
  rw [step_running hrun, stepRunning, hw]

theorem step_of_inWait_unanswered (h : s.input = []) : step s = .fault .inputNotAnswered := by
  rw [step_of_inWait hrun hw, resumeIn, inRead_none h]

theorem step_of_inWait_answered {r : InputAnswer} {rest : List InputAnswer} (h : s.input = r :: rest) :
    step s = .next ((s.setInput rest).endWait.takeAnswer w r) := by
  rw [step_of_inWait hrun hw, resumeIn, inRead_cons h]

end

theorem endWait_eq_self {s : State} (h : s.inWait = none) : s.endWait = s := by
  cases s
  cases h
  rfl

/-- Settles O43: ending the wait gives back the state in which the answer would have been taken at once. -/
theorem inHoldsUntilAnswered : Obligations.InHoldsUntilAnswered := by
  intro a s hin hwait
  refine ⟨_, exec_inp_unanswered a hin, rfl, by simp [SameExcept], fun hrun => ?_⟩
  refine ⟨step_of_inWait_unanswered hrun rfl hin, fun r => ?_⟩
  have hanswer : (s.hostAnswer r).input = [r] := by simp [State.hostAnswer, hin]
  have hend : (((s.hostAnswer r).advance 2#16).setInput []).endWait =
      ((s.hostAnswer r).advance 2#16).setInput [] := endWait_eq_self hwait
  rw [exec_inp_answered a hanswer, ← hend]
  exact step_of_inWait_answered (s := ((s.advance 2#16).beginWait ⟨a, s.ip⟩).hostAnswer r) hrun rfl hanswer

end Sys2Proof.Machine
end

section
/-! PROOFS. What every instruction and every step can do, said once (R36, R80 to R90), and the statements about all
instructions, each by the cases of that one fact. -/

namespace Sys2Proof.Machine

open Claims

/-! ## What taking an answer leaves unchanged (R181) -/

section
variable (s : State) (w : InWait) (r : InputAnswer)

@[simp] theorem takeAnswer_stack : (s.takeAnswer w r).stack = s.stack := by cases r <;> simp
@[simp] theorem takeAnswer_ip : (s.takeAnswer w r).ip = s.ip := by cases r <;> simp
@[simp] theorem takeAnswer_mem : (s.takeAnswer w r).mem = s.mem := by cases r <;> simp
@[simp] theorem takeAnswer_inWait : (s.takeAnswer w r).inWait = s.inWait := by cases r <;> simp
@[simp] theorem takeAnswer_input : (s.takeAnswer w r).input = s.input := by cases r <;> simp
@[simp] theorem takeAnswer_output : (s.takeAnswer w r).output = s.output := by cases r <;> simp

theorem takeAnswer_reg_of_ne {j : RegId} (h : w.dest ≠ .reg j) : (s.takeAnswer w r).reg j = s.reg j := by
  cases r <;> simp [setOp_reg, h]

end

/-! ## The answers of the instructions -/

/-- The value that an instruction which only computes one writes to its destination. -/
def resultOf (i : Instr) (s : State) : Word :=
  match i with
  | .set _ b => s.getOp b
  | .eq _ b c => aluEq (s.getOp b) (s.getOp c)
  | .gt _ b c => aluGt (s.getOp b) (s.getOp c)
  | .add _ b c => aluAdd (s.getOp b) (s.getOp c)
  | .mult _ b c => aluMult (s.getOp b) (s.getOp c)
  | .mod _ b c => BitVec.ofNat 16 ((s.getOp b).toNat % (s.getOp c).toNat)
  | .and _ b c => aluAnd (s.getOp b) (s.getOp c)
  | .or _ b c => aluOr (s.getOp b) (s.getOp c)
  | .not _ b => aluNot (s.getOp b)
  | .rmem _ b => s.mem.read (s.getOp b).toNat
  | _ => 0#16

/-- The states an instruction can lead to from `s`. Where an instruction is named, only it does so; `goes` is for Noop
and the jumps. -/
inductive Effect (s : State) : Instr → State → Prop
  | goes {i : Instr} (noDest : i.dest = none) : Effect s i (s.jump (muxNextIp i s))
  | halts {i : Instr} (ends : i = .halt ∨ (i = .ret ∧ s.stack = [])) : Effect s i (s.jump (muxNextIp i s)).halt
  | result {i : Instr} {d : Operand} (dest : i.dest = some d) :
      Effect s i ((s.jump (muxNextIp i s)).setOp s.ip d (resultOf i s))
  | faults {i : Instr} {len : Word} {k : FaultKind} (info : s.stackOk = true → k.infoOk s.cfg = true) :
      Effect s i ((s.advance len).raise s.ip k)
  | push (a : Operand) (room : s.stackFull = false) :
      Effect s (.push a) ((s.setStack (s.stack ++ [s.getOp a])).jump (s.ip + 2#16))
  | call (a : Operand) (room : s.stackFull = false) :
      Effect s (.call a) ((s.setStack (s.stack ++ [s.ip + 2#16])).jump (s.getOp a))
  | pop (a : Operand) {l : List Word} {v : Word} (top : s.stack = l ++ [v]) :
      Effect s (.pop a) (((s.advance 2#16).setStack l).setOp s.ip a v)
  | ret {l : List Word} {v : Word} (top : s.stack = l ++ [v]) : Effect s .ret ((s.setStack l).jump v)
  | store (a b : Operand) (inside : (s.getOp a).toNat ≤ 32767) :
      Effect s (.wmem a b) ((s.advance 3#16).setMem (s.mem.write (s.getOp a).toNat (s.getOp b)))
  | send (a : Operand) : Effect s (.out a) ((s.advance 2#16).outWrite ((s.getOp a).setWidth 8))
  | waits (a : Operand) (unanswered : s.input = []) :
      Effect s (.inp a) ((s.advance 2#16).beginWait { dest := a, opAddr := s.ip })
  | answered (a : Operand) {r : InputAnswer} {rest : List InputAnswer} (next : s.input = r :: rest) :
      Effect s (.inp a) (((s.advance 2#16).setInput rest).takeAnswer { dest := a, opAddr := s.ip } r)

/-- R24, D5: the capacity is positive and not exceeded, where it is finite. -/
theorem stackOk_iff (s : State) :
    s.stackOk = true ↔ ∀ n, s.cfg.stackCapacity = .words n → 0 < n ∧ s.stack.length ≤ n := by
  unfold State.stackOk
  cases s.cfg.stackCapacity <;> simp [StackCapacity.admits]

/-- R200: a full stack within its capacity has exactly the capacity's depth. -/
theorem infoOk_stackOverflow {s : State} (hfull : s.stackFull = true) (hok : s.stackOk = true) :
    (FaultKind.stackOverflow s.stack.length).infoOk s.cfg = true := by
  obtain ⟨n, hn, hle⟩ := (stackFull_eq_true s).mp hfull
  obtain ⟨-, hge⟩ := (stackOk_iff s).mp hok n hn
  obtain rfl : n = s.stack.length := by omega
  simpa [FaultKind.infoOk] using hn

/-- R200: a fault of the memory interface names an address above 32767. -/
theorem infoOk_memoryOutOfBounds (cfg : Config) (access : Access) {addr : Word} (h : 32767 < addr.toNat) :
    (FaultKind.memoryOutOfBounds access addr 32767#16).infoOk cfg = true := by
  simp [FaultKind.infoOk, h]

theorem muxNextIp_jt_zero {a : Operand} (b : Operand) {s : State} (h : s.getOp a = 0#16) :
    muxNextIp (.jt a b) s = s.ip + 3#16 := if_pos h
theorem muxNextIp_jt_nonzero {a : Operand} (b : Operand) {s : State} (h : s.getOp a ≠ 0#16) :
    muxNextIp (.jt a b) s = s.getOp b := if_neg h
theorem muxNextIp_jf_zero {a : Operand} (b : Operand) {s : State} (h : s.getOp a = 0#16) :
    muxNextIp (.jf a b) s = s.getOp b := if_pos h
theorem muxNextIp_jf_nonzero {a : Operand} (b : Operand) {s : State} (h : s.getOp a ≠ 0#16) :
    muxNextIp (.jf a b) s = s.ip + 3#16 := if_neg h

/-- The arms of Jt: the multiplexer makes the test that the instruction makes. -/
theorem exec_jt (a b : Operand) (s : State) : exec (.jt a b) s = .next (s.jump (muxNextIp (.jt a b) s)) := by
  by_cases h : s.getOp a = 0#16
  · rw [exec_jt_of_zero b h, muxNextIp_jt_zero b h]
    rfl
  · rw [exec_jt_of_nonzero b h, muxNextIp_jt_nonzero b h]

theorem exec_jf (a b : Operand) (s : State) : exec (.jf a b) s = .next (s.jump (muxNextIp (.jf a b) s)) := by
  by_cases h : s.getOp a = 0#16
  · rw [exec_jf_of_zero b h, muxNextIp_jf_zero b h]
  · rw [exec_jf_of_nonzero b h, muxNextIp_jf_nonzero b h]
    rfl

/-- Every instruction has a next state, which is one of its effects. -/
theorem exec_effect (i : Instr) (s : State) : ∃ t, exec i s = .next t ∧ Effect s i t := by
  cases i with
  | halt => exact ⟨_, rfl, .halts (.inl rfl)⟩
  | noop | jmp a => exact ⟨_, rfl, .goes rfl⟩
  | jt a b => exact ⟨_, exec_jt a b s, .goes rfl⟩
  | jf a b => exact ⟨_, exec_jf a b s, .goes rfl⟩
  | set a b | not a b | eq a b c | gt a b c | add a b c | mult a b c | and a b c | or a b c =>
    exact ⟨_, rfl, .result rfl⟩
  | mod a b c =>
    by_cases h : s.getOp c = 0#16
    · exact ⟨_, exec_mod_zero a b h, .faults fun _ => rfl⟩
    · have e : exec (.mod a b c) s = writeResult 4#16 a (resultOf (.mod a b c) s) s := by
        simp only [exec, execMod, aluMod, if_neg h, resultOf]
      exact ⟨_, e, .result rfl⟩
  | rmem a b =>
    by_cases h : (s.getOp b).toNat ≤ 32767
    · exact ⟨_, exec_rmem_inside a h, .result rfl⟩
    · have h := Nat.lt_of_not_le h
      exact ⟨_, exec_rmem_outside a h, .faults fun _ => infoOk_memoryOutOfBounds _ _ h⟩
  | wmem a b =>
    by_cases h : (s.getOp a).toNat ≤ 32767
    · exact ⟨_, exec_wmem_inside b h, .store a b h⟩
    · have h := Nat.lt_of_not_le h
      exact ⟨_, exec_wmem_outside b h, .faults fun _ => infoOk_memoryOutOfBounds _ _ h⟩
  | push a =>
    cases h : s.stackFull with
    | false => exact ⟨_, exec_push_room a h, .push a h⟩
    | true => exact ⟨_, exec_push_full a h, .faults (infoOk_stackOverflow h)⟩
  | call a =>
    cases h : s.stackFull with
    | false => exact ⟨_, exec_call_room a h, .call a h⟩
    | true => exact ⟨_, exec_call_full a h, .faults (infoOk_stackOverflow h)⟩
  | pop a =>
    rcases List.eq_nil_or_concat' s.stack with h | ⟨l, v, h⟩
    · exact ⟨_, exec_pop_empty a h, .faults fun _ => rfl⟩
    · exact ⟨_, exec_pop_concat a h, .pop a h⟩
  | ret =>
    rcases List.eq_nil_or_concat' s.stack with h | ⟨l, v, h⟩
    · have hmux : muxNextIp .ret s = s.ip + 1#16 := by simp [muxNextIp, h]
      have e : exec .ret s = .next (s.jump (muxNextIp .ret s)).halt := by
        rw [exec_ret_empty h, hmux]
        rfl
      exact ⟨_, e, .halts (.inr ⟨rfl, h⟩)⟩
    · exact ⟨_, exec_ret_concat h, .ret h⟩
  | out a => exact ⟨_, rfl, .send a⟩
  | inp a =>
    cases h : s.input with
    | nil => exact ⟨_, exec_inp_unanswered a h, .waits a h⟩
    | cons r rest => exact ⟨_, exec_inp_answered a h, .answered a h⟩

theorem effect_of_exec {i : Instr} {s t : State} (h : exec i s = .next t) : Effect s i t := by
  obtain ⟨u, hu, heffect⟩ := exec_effect i s
  obtain rfl : u = t := Host.Outcome.next.inj (hu.symm.trans h)
  exact heffect

/-! ## The answers of a step -/

/-- The states a step can lead to: the rest of an In that held, a decode fault, or an instruction's effect. -/
inductive StepEffect (s : State) : State → Prop
  | resumes {w : InWait} {r : InputAnswer} {rest : List InputAnswer} (wait : s.inWait = some w)
      (next : s.input = r :: rest) : StepEffect s ((s.setInput rest).endWait.takeAnswer w r)
  | rejects {k : FaultKind} (wait : s.inWait = none) (decode : fetchDecode s.mem s.ip = .error k) :
      StepEffect s (s.raise s.ip k)
  | executes {i : Instr} {t : State} (wait : s.inWait = none) (decode : fetchDecode s.mem s.ip = .ok i)
      (effect : Effect s i t) : StepEffect s t

theorem stepEffect_of_step {s t : State} (h : step s = .next t) : StepEffect s t := by
  obtain ⟨-, h⟩ := step_next h
  rcases stepRunning_cases s with ⟨w, hw, e⟩ | ⟨hw, k, hd, e⟩ | ⟨hw, i, hd, e⟩
  · rcases resumeIn_cases w s with ⟨-, e'⟩ | ⟨r, rest, hin, e'⟩
    · cases h.symm.trans (e.trans e')
    · cases h.symm.trans (e.trans e')
      exact .resumes hw hin
  · cases h.symm.trans e
    exact .rejects hw hd
  · exact .executes hw hd (effect_of_exec (e.symm.trans h))

/-- A step with a next state starts without a halt and without a fault. -/
theorem running_of_step {s t : State} (h : step s = .next t) : s.halted = false ∧ s.fault = none :=
  (runState_eq_running s).mp (step_next h).1

/-- Settles O14: an In that holds has its answer, and every other step is a decode fault or an instruction. -/
theorem runningMachineAlwaysSteps : Obligations.RunningMachineAlwaysSteps := by
  intro s hrun hblocked
  rw [step_running hrun]
  rcases stepRunning_cases s with ⟨w, hw, e⟩ | ⟨-, k, -, e⟩ | ⟨-, i, -, e⟩
  · rcases resumeIn_cases w s with ⟨hin, -⟩ | ⟨r, rest, -, e'⟩
    · simp [State.blocked, hrun, hw, hin] at hblocked
    · exact ⟨_, e.trans e'⟩
  · exact ⟨_, e⟩
  · obtain ⟨t, ht, -⟩ := exec_effect i s
    exact ⟨t, e.trans ht⟩

/-! ## The next `ip` (R87) -/

/-- Settles O13: the effects that neither fault nor wait leave the multiplexer's `ip`. -/
theorem nextIpIsTheMultiplexers : Obligations.NextIpIsTheMultiplexers := by
  intro i s t h hfault hwait
  cases effect_of_exec h with
  | faults => simp at hfault
  | waits => simp at hwait
  | ret top => simp [muxNextIp, top]
  | result | pop => rw [setOp_ip]; rfl
  | answered => rw [takeAnswer_ip]; rfl
  | goes | halts | push | call | store | send => rfl

/-! ## The fault register (R201, R204) -/

theorem faultIp_of_setOp {s : State} {p : Word} {op : Operand} {v : Word} {r : FaultRecord} (hs : s.fault = none)
    (h : (s.setOp p op v).fault = some r) : r.faultIp = p := by
  cases op with
  | reg i => simp [hs] at h
  | lit l =>
    cases h
    rfl

theorem faultIp_of_takeAnswer {s : State} {w : InWait} {a : InputAnswer} {r : FaultRecord} (hs : s.fault = none)
    (h : (s.takeAnswer w a).fault = some r) : r.faultIp = w.opAddr := by
  cases a with
  | byte b => exact faultIp_of_setOp hs h
  | closed | error =>
    cases h
    rfl

/-- A fault of an instruction records the `ip` at which the instruction stands. -/
theorem faultIp_of_effect {s t : State} {i : Instr} {r : FaultRecord} (hs : s.fault = none) (heffect : Effect s i t)
    (h : t.fault = some r) : r.faultIp = s.ip := by
  cases heffect with
  | faults =>
    cases h
    rfl
  | result => exact faultIp_of_setOp (s := s.jump (muxNextIp i s)) hs h
  | pop _ top => exact faultIp_of_setOp (s := (s.advance _).setStack _) hs h
  | answered => exact faultIp_of_takeAnswer (s := (s.advance _).setInput _) hs h
  | goes | halts | push | call | ret | store | send | waits => simp [hs] at h

/-- Settles O15: one address for the rest of an In, and `ip` for every other step. -/
theorem faultRecordHoldsOpcodeAddress : Obligations.FaultRecordHoldsOpcodeAddress := by
  intro s t r hstep ht
  obtain ⟨-, hs⟩ := running_of_step hstep
  cases stepEffect_of_step hstep with
  | @resumes w _ rest hw =>
    have haddr := faultIp_of_takeAnswer (s := (s.setInput rest).endWait) hs ht
    simp [hw, haddr]
  | rejects hw =>
    cases ht
    simp [hw]
  | executes hw _ heffect => simp [hw, faultIp_of_effect hs heffect ht]

/-! ## The frame of every instruction (R36, R86) -/

/-- Settles O49: the destination write is the only register write. -/
theorem onlyTheDestinationChanges : Obligations.OnlyTheDestinationChanges := by
  intro i s t j h hdest
  cases effect_of_exec h with
  | result dest =>
    rw [setOp_reg, if_neg (by rintro rfl; exact hdest dest)]
    rfl
  | pop a =>
    rw [setOp_reg, if_neg (by rintro rfl; exact hdest rfl)]
    rfl
  | answered a => exact takeAnswer_reg_of_ne _ _ _ (by rintro rfl; exact hdest rfl)
  | goes | halts | faults | push | call | ret | store | send | waits => rfl

/-- Settles O50: the store is the only memory write. -/
theorem onlyWMemChangesMemory : Obligations.OnlyWMemChangesMemory := by
  intro i s t hwf h x
  cases effect_of_exec h with
  | store a b inside =>
    by_cases hx : x = (s.getOp a).toNat
    · exact .inr ⟨a, b, rfl, hx, hx ▸ inside⟩
    · exact .inl (by rw [setMem_mem, read_write hwf, if_neg hx])
  | result | pop | answered | goes | halts | faults | push | call | ret | send | waits => exact .inl (by simp)

/-- Settles O51: two effects add a stack entry and two take the top. -/
theorem stackChangesOnlyAtTheTop : Obligations.StackChangesOnlyAtTheTop := by
  intro i s t h
  cases effect_of_exec h with
  | push a => exact .inr (.inl ⟨.inl ⟨a, rfl⟩, _, rfl⟩)
  | call a => exact .inr (.inl ⟨.inr ⟨a, rfl⟩, _, rfl⟩)
  | pop a top => exact .inr (.inr ⟨.inl ⟨a, rfl⟩, _, by simpa using top⟩)
  | ret top => exact .inr (.inr ⟨.inr rfl, _, top⟩)
  | result | answered | goes | halts | faults | store | send | waits => exact .inl (by simp)

/-- Settles O53: one effect appends a byte and one takes an answer. -/
theorem onlyOutAndInUseTheChannels : Obligations.OnlyOutAndInUseTheChannels := by
  intro i s t h
  cases effect_of_exec h with
  | send a => exact ⟨.inr ⟨a, _, rfl, rfl⟩, .inl rfl⟩
  | answered a next => exact ⟨.inl (by simp), .inr ⟨a, _, rfl, by simpa using next⟩⟩
  | result | pop | goes | halts | faults | push | call | ret | store | waits => exact ⟨.inl (by simp), .inl (by simp)⟩

/-! ## Values in 15 bits (R21) -/

theorem toNat_getOp_le {s : State} (hs : FifteenBit s) {op : Operand} (hop : op.wf = true) :
    (s.getOp op).toNat ≤ 32767 := by
  obtain ⟨hregs, -⟩ := hs
  cases op with
  | lit v => simpa [Operand.wf] using hop
  | reg i => exact hregs i

theorem fifteenBit_setOp {s : State} (hs : FifteenBit s) (p : Word) (op : Operand) {v : Word} (hv : v.toNat ≤ 32767) :
    FifteenBit (s.setOp p op v) := by
  obtain ⟨hregs, hstack⟩ := hs
  refine ⟨fun j => ?_, by rwa [setOp_stack]⟩
  rw [setOp_reg]
  split
  · exact hv
  · exact hregs j

theorem fifteenBit_takeAnswer {s : State} (hs : FifteenBit s) (w : InWait) (r : InputAnswer) :
    FifteenBit (s.takeAnswer w r) := by
  cases r with
  | byte b =>
    have hb : (b.setWidth 16 : Word).toNat ≤ 32767 := by
      rw [toNat_zeroExtend_byte]
      omega
    exact fifteenBit_setOp hs _ _ hb
  | closed | error => exact hs

theorem fifteenBit_setStack_append {s : State} (hs : FifteenBit s) {v : Word} (hv : v.toNat ≤ 32767) :
    FifteenBit (s.setStack (s.stack ++ [v])) := by
  obtain ⟨hregs, hstack⟩ := hs
  refine ⟨hregs, fun u hu => ?_⟩
  rcases List.mem_append.mp hu with hu | hu
  · exact hstack u hu
  · rwa [List.mem_singleton.mp hu]

/-- The top of the stack is in 15 bits, and so is the state without it. -/
theorem fifteenBit_setStack_of_concat {s : State} (hs : FifteenBit s) {l : List Word} {v : Word}
    (top : s.stack = l ++ [v]) : v.toNat ≤ 32767 ∧ FifteenBit (s.setStack l) := by
  obtain ⟨hregs, hstack⟩ := hs
  rw [top] at hstack
  exact ⟨hstack v (by simp), hregs, fun u hu => hstack u (List.mem_append_left _ hu)⟩

/-- R156: every result but RMem's is in 15 bits when the sources are. -/
theorem toNat_resultOf_le {i : Instr} {s : State} (hwf : i.wf = true) (hs : FifteenBit s)
    (hrmem : ∀ a b, i = .rmem a b → (s.mem.read (s.getOp b).toNat).toNat ≤ 32767) :
    (resultOf i s).toNat ≤ 32767 := by
  rw [wf_iff] at hwf
  have hsource : ∀ op ∈ i.operands, (s.getOp op).toNat ≤ 32767 := fun op hop => toNat_getOp_le hs (hwf op hop)
  cases i with
  | set a b => exact hsource b (by simp [Instr.operands])
  | eq a b c | gt a b c =>
    simp only [resultOf, toNat_aluEq, toNat_aluGt]
    split <;> omega
  | add a b c | mult a b c =>
    simp only [resultOf, toNat_aluAdd, toNat_aluMult]
    exact Nat.le_of_lt_succ (Nat.mod_lt _ (by decide))
  | mod a b c =>
    have hb := hsource b (by simp [Instr.operands])
    simp only [resultOf, BitVec.toNat_ofNat]
    exact (Nat.mod_le _ _).trans ((Nat.mod_le _ _).trans hb)
  | and a b c => exact Nat.and_le_left.trans (hsource b (by simp [Instr.operands]))
  | or a b c => exact or_le_of_le (hsource b (by simp [Instr.operands])) (hsource c (by simp [Instr.operands]))
  | not a b =>
    simp only [resultOf, toNat_aluNot]
    omega
  | rmem a b => exact hrmem a b rfl
  | halt | push | pop | jmp | jt | jf | wmem | call | ret | out | inp | noop => exact Nat.zero_le _

/-- Settles O56: each register write and each push, by the range of the value written. -/
theorem fifteenBitValuesPersist : Obligations.FifteenBitValuesPersist := by
  intro i s t hwf hs h hrmem hcall
  cases effect_of_exec h with
  | result => exact fifteenBit_setOp (s := s.jump (muxNextIp i s)) hs _ _ (toNat_resultOf_le hwf hs hrmem)
  | push a =>
    have ha := toNat_getOp_le hs ((wf_iff _).mp hwf a (by simp [Instr.operands]))
    exact fifteenBit_setStack_append hs ha
  | call a => exact fifteenBit_setStack_append hs (hcall a rfl)
  | pop a top =>
    obtain ⟨hv, hrest⟩ := fifteenBit_setStack_of_concat hs top
    exact fifteenBit_setOp (s := (s.advance 2#16).setStack _) hrest _ _ hv
  | ret top => exact (fifteenBit_setStack_of_concat hs top).2
  | answered => exact fifteenBit_takeAnswer (s := (s.advance 2#16).setInput _) hs _ _
  | goes | halts | faults | store | send | waits => exact hs

end Sys2Proof.Machine
end

section
/-! PROOFS. The invariant (R20 to R36, R89, R200): every operation keeps it or ends the run within it, so every step
and every load does. -/

namespace Sys2Proof.Machine

/-! ## A machine about to fetch, within the invariant -/

/-- What the invariant asks of a machine that runs and does not hold in an In. -/
structure Ready (s : State) : Prop where
  mem : s.mem.wf = true
  stack : s.stackOk = true
  halted : s.halted = false
  fault : s.fault = none
  wait : s.inWait = none

theorem inv_iff (s : State) :
    s.inv = true ↔ s.mem.wf = true ∧ s.statusOk = true ∧ s.stackOk = true ∧ s.waitOk = true ∧ s.faultOk = true := by
  simp [State.inv, and_assoc]

theorem ready_of_inv {s : State} (hinv : s.inv = true) (hhalted : s.halted = false) (hfault : s.fault = none)
    (hwait : s.inWait = none) : Ready s := by
  obtain ⟨hmem, -, hstack, -, -⟩ := (inv_iff s).mp hinv
  exact ⟨hmem, hstack, hhalted, hfault, hwait⟩

/-- R34, R89: what the invariant asks of a wait; an operand that decoded and the address of its opcode word. -/
theorem waitOk_of_inWait {s : State} {w : InWait} (hw : s.inWait = some w) :
    s.waitOk = true ↔ s.halted = false ∧ s.fault = none ∧ w.dest.wf = true ∧ w.opAddr.toNat ≤ 32766 ∧
      s.ip.toNat = w.opAddr.toNat + 2 := by
  simp [State.waitOk, hw, and_assoc]

namespace Ready

variable {s : State} (hs : Ready s)
include hs

theorem inv : s.inv = true := by
  simp [inv_iff, State.statusOk, State.waitOk, State.faultOk, hs.mem, hs.stack, hs.halted, hs.fault, hs.wait]

theorem raise_inv (p : Word) {k : FaultKind} (hk : k.infoOk s.cfg = true) : (s.raise p k).inv = true := by
  have hstack : (s.raise p k).stackOk = true := hs.stack
  simp [inv_iff, State.statusOk, State.waitOk, State.faultOk, hs.mem, hstack, hs.halted, hs.wait, hk]

theorem halt_inv : s.halt.inv = true := by
  have hstack : s.halt.stackOk = true := hs.stack
  simp [inv_iff, State.statusOk, State.waitOk, State.faultOk, hs.mem, hstack, hs.fault, hs.wait]

theorem beginWait_inv {w : InWait} (hdest : w.dest.wf = true) (haddr : w.opAddr.toNat ≤ 32766)
    (hip : s.ip.toNat = w.opAddr.toNat + 2) : (s.beginWait w).inv = true := by
  have hstack : (s.beginWait w).stackOk = true := hs.stack
  have hwait : (s.beginWait w).waitOk = true :=
    (waitOk_of_inWait (beginWait_inWait s w)).mpr ⟨hs.halted, hs.fault, hdest, haddr, hip⟩
  simp [inv_iff, State.statusOk, State.faultOk, hs.mem, hstack, hs.halted, hs.fault, hwait]

theorem setOp_inv (p : Word) {op : Operand} (hop : op.wf = true) (v : Word) : (s.setOp p op v).inv = true := by
  cases op with
  | reg i => exact inv (s := s.setReg i v) ⟨hs.mem, hs.stack, hs.halted, hs.fault, hs.wait⟩
  | lit l => exact hs.raise_inv p (by simpa [Operand.wf, FaultKind.infoOk] using hop)

theorem takeAnswer_inv {w : InWait} (hdest : w.dest.wf = true) (r : InputAnswer) : (s.takeAnswer w r).inv = true := by
  cases r with
  | byte b => exact hs.setOp_inv _ hdest _
  | closed | error => exact hs.raise_inv _ rfl

theorem jump (target : Word) : Ready (s.jump target) := ⟨hs.mem, hs.stack, hs.halted, hs.fault, hs.wait⟩

theorem setInput (l : List InputAnswer) : Ready (s.setInput l) := ⟨hs.mem, hs.stack, hs.halted, hs.fault, hs.wait⟩

theorem outWrite (b : Byte) : Ready (s.outWrite b) := ⟨hs.mem, hs.stack, hs.halted, hs.fault, hs.wait⟩

theorem setMem {m : Memory} (hm : m.wf = true) : Ready (s.setMem m) := ⟨hm, hs.stack, hs.halted, hs.fault, hs.wait⟩

/-- R24: a push below the capacity stays within it. -/
theorem setStack_append (hroom : s.stackFull = false) (v : Word) : Ready (s.setStack (s.stack ++ [v])) := by
  refine ⟨hs.mem, (stackOk_iff _).mpr fun n hn => ?_, hs.halted, hs.fault, hs.wait⟩
  obtain ⟨hpos, -⟩ := (stackOk_iff s).mp hs.stack n hn
  have hlt : s.stack.length < n := by
    by_contra hge
    have hfull := (stackFull_eq_true s).mpr ⟨n, hn, Nat.le_of_not_lt hge⟩
    simp [hroom] at hfull
  exact ⟨hpos, by simpa using hlt⟩

/-- R25: a pop stays within the capacity. -/
theorem setStack_of_concat {l : List Word} {v : Word} (top : s.stack = l ++ [v]) : Ready (s.setStack l) := by
  refine ⟨hs.mem, (stackOk_iff _).mpr fun n hn => ?_, hs.halted, hs.fault, hs.wait⟩
  obtain ⟨hpos, hle⟩ := (stackOk_iff s).mp hs.stack n hn
  rw [top, List.length_append] at hle
  exact ⟨hpos, (Nat.le_add_right _ _).trans hle⟩

end Ready

/-! ## Every step keeps the invariant -/

/-- R63: the destination is one of the operands. -/
theorem mem_operands_of_dest {i : Instr} {d : Operand} (hd : i.dest = some d) : d ∈ i.operands := by
  cases i with
  | halt | push | jmp | jt | jf | wmem | call | ret | out | noop => cases hd
  | pop | inp | set | not | rmem | eq | gt | add | mult | mod | and | or =>
    cases hd
    exact List.mem_cons_self

/-- R66: a destination that decoded is one that the encoding can express. -/
theorem wf_of_dest {i : Instr} (hwf : i.wf = true) {d : Operand} (hd : i.dest = some d) : d.wf = true :=
  (wf_iff i).mp hwf d (mem_operands_of_dest hd)

/-- R81 to R83: an instruction that lies inside memory keeps the invariant. -/
theorem inv_of_effect {s t : State} {i : Instr} (hs : Ready s) (hwf : i.wf = true)
    (hinside : s.ip.toNat + i.length ≤ 32768) (heffect : Effect s i t) : t.inv = true := by
  cases heffect with
  | goes => exact (hs.jump _).inv
  | halts => exact (hs.jump _).halt_inv
  | result dest => exact (hs.jump _).setOp_inv _ (wf_of_dest hwf dest) _
  | faults info => exact (hs.jump _).raise_inv _ (info hs.stack)
  | push a room | call a room => exact ((hs.setStack_append room _).jump _).inv
  | pop a top => exact ((hs.jump (s.ip + 2#16)).setStack_of_concat top).setOp_inv _ (wf_of_dest hwf rfl) _
  | ret top => exact ((hs.setStack_of_concat top).jump _).inv
  | store a b inside => exact ((hs.jump _).setMem (wf_write hs.mem (Nat.lt_succ_of_le inside))).inv
  | send a => exact ((hs.jump _).outWrite _).inv
  | waits a =>
    have hlen : s.ip.toNat + 2 ≤ 32768 := hinside
    have hip : (s.ip + 2#16).toNat = s.ip.toNat + 2 := by
      simp only [BitVec.toNat_add, BitVec.toNat_ofNat]
      omega
    have haddr : s.ip.toNat ≤ 32766 := by omega
    exact (hs.jump _).beginWait_inv (wf_of_dest hwf rfl) haddr hip
  | answered a => exact ((hs.jump _).setInput _).takeAnswer_inv (wf_of_dest hwf rfl) _

/-- R73, R200: what a decode fault at `p` records is what its cause can give. -/
theorem infoOk_of_fetchDecode_error (cfg : Config) {m : Memory} {p : Word} {k : FaultKind}
    (h : fetchDecode m p = .error k) : k.infoOk cfg = true := by
  obtain ⟨e, he, rfl⟩ := fetchDecode_error h
  have hexplains := decodeWords_error he
  cases e with
  | invalidOpcode w | invalidOperand w => exact decide_eq_true hexplains
  | missingWord k =>
    obtain ⟨hlen, hk⟩ := hexplains
    rw [toFault_missingWord]
    refine infoOk_memoryOutOfBounds cfg .read ?_
    by_cases hp : p.toNat ≤ 32767
    · rw [length_fetchWords hp] at hlen
      simp only [BitVec.toNat_ofNat]
      omega
    · rw [fetchWords, wordsFrom_outside (by omega), List.length_nil] at hlen
      subst hlen
      simpa using hp

/-- Settles O44: the rest of an In, a decode fault and an instruction's effect, each from a machine that is ready. -/
theorem stepKeepsInvariant : Obligations.StepKeepsInvariant := by
  intro s t hinv hstep
  obtain ⟨hhalted, hfault⟩ := running_of_step hstep
  obtain ⟨hmem, -, hstack, hwaitOk, -⟩ := (inv_iff s).mp hinv
  cases stepEffect_of_step hstep with
  | @resumes w r rest hw =>
    obtain ⟨-, -, hdest, -, -⟩ := (waitOk_of_inWait hw).mp hwaitOk
    have hready : Ready (s.setInput rest).endWait := ⟨hmem, hstack, hhalted, hfault, rfl⟩
    exact hready.takeAnswer_inv hdest r
  | rejects hw hd => exact (ready_of_inv hinv hhalted hfault hw).raise_inv _ (infoOk_of_fetchDecode_error _ hd)
  | executes hw hd heffect =>
    obtain ⟨hwf, -⟩ := fetchDecode_encode hd
    exact inv_of_effect (ready_of_inv hinv hhalted hfault hw) hwf (fetchDecode_inside hd) heffect

/-! ## Reset and the load meet it (R231, R232) -/

/-- Settles O45: every field of the reset state, evaluated. -/
theorem resetMeetsInvariant : Obligations.ResetMeetsInvariant := by
  unfold Obligations.ResetMeetsInvariant
  decide

theorem inv_loadFrom {a : Nat} (fails : Bool) (ws : List Word) {s : State} (ha : a ≤ 32768) (hs : Ready s) :
    (loadFrom a fails ws s).inv = true := by
  induction ws generalizing a s with
  | nil =>
    cases fails with
    | false => exact hs.inv
    | true => exact hs.raise_inv _ rfl
  | cons w ws ih =>
    rcases loadFrom_cons_cases a fails w ws s ha with ⟨hin, e⟩ | ⟨-, e⟩
    · rw [e]
      exact ih (by omega) (hs.setMem (wf_write hs.mem (Nat.lt_succ_of_le hin)))
    · rw [e]
      exact hs.raise_inv _ (infoOk_memoryOutOfBounds _ _ (by decide))

/-- Settles O46: the machine is ready before the load, since the stack is empty and the capacity not 0. -/
theorem bootMeetsInvariant : Obligations.BootMeetsInvariant := by
  intro cfg image answers hcap
  refine inv_loadFrom image.fails image.words (Nat.zero_le _)
    ⟨wf_reset_mem, (stackOk_iff _).mpr fun n hn => ⟨?_, Nat.zero_le n⟩, rfl, rfl, rfl⟩
  exact Nat.pos_of_ne_zero (by rintro rfl; exact hcap hn)

/-- Settles O48: the fields of `State.reset`. -/
theorem resetLeavesNothingBehind : Obligations.ResetLeavesNothingBehind :=
  ⟨rfl, rfl, rfl, read_nil, rfl, rfl, rfl, rfl⟩

end Sys2Proof.Machine
end

section
/-! PROOFS. The facts of 70_reset_and_hazards.md about the load (R232), and the fault codes (R200). -/

namespace Sys2Proof.Machine

/-! ## An image that fits -/

/-- A load that does not run past the last cell: its words are stored, and then a failing stream faults. -/
theorem loadFrom_fits {a : Nat} (fails : Bool) {ws : List Word} (s : State) (h : a + ws.length ≤ 32768) :
    loadFrom a fails ws s =
      loadFrom (a + ws.length) fails [] (s.setMem (s.mem.storeWords a ws)) := by
  induction ws generalizing a s with
  | nil => rfl
  | cons w ws ih =>
    rw [List.length_cons] at h
    have ha : a < memWords := by
      change a < 32768
      omega
    rcases loadFrom_cons_cases a fails w ws s (by omega) with ⟨-, e⟩ | ⟨hlast, -⟩
    · rw [e, ih _ (by omega), List.length_cons, Memory.storeWords, if_pos ha]
      rfl
    · omega

/-- R40: after words were stored from `a` on, each cell reads as its word, and every other as before. -/
theorem read_storeWords {m : Memory} (hm : m.wf = true) {a : Nat} {ws : List Word} (h : a + ws.length ≤ 32768) (x : Nat) :
    (m.storeWords a ws).read x = if x < a then m.read x else ws.getD (x - a) (m.read x) := by
  induction ws generalizing a m with
  | nil => simp [Memory.storeWords]
  | cons w ws ih =>
    rw [List.length_cons] at h
    have ha : a < memWords := by
      change a < 32768
      omega
    rw [Memory.storeWords, if_pos ha, ih (wf_write hm ha) (by omega), read_write hm]
    rcases Nat.lt_trichotomy x a with hx | rfl | hx
    · rw [if_pos (by omega), if_neg (by omega), if_pos hx]
    · simp
    · obtain ⟨k, rfl⟩ := Nat.exists_eq_add_of_lt hx
      have hidx : a + k + 1 - a = k + 1 := by omega
      have hidx' : a + k + 1 - (a + 1) = k := by omega
      rw [if_neg (by omega), if_neg (by omega), if_neg (by omega), hidx, hidx', List.getD_cons_succ]

/-- The state that an image which fits leaves: the reset state with the image stored. -/
theorem boot_fits (cfg : Config) {ws : List Word} (answers : List InputAnswer) (h : ws.length ≤ 32768) :
    State.boot cfg ⟨ws, false⟩ answers =
      { State.reset with cfg := cfg, input := answers, mem := Memory.storeWords [] 0 ws } :=
  loadFrom_fits false _ ((Nat.zero_add _).trans_le h)

/-- Settles O58: the stored image, and the reset state's other fields. -/
theorem loadFillsFromZero : Obligations.LoadFillsFromZero := by
  intro cfg ws answers h
  rw [boot_fits cfg answers h]
  refine ⟨fun a => ?_, reset_reg, rfl, rfl, rfl, rfl, rfl, rfl⟩
  exact read_storeWords (m := []) rfl (by omega) a

/-! ## A load that faults (D8, D10) -/

theorem fault_loadFrom_overlong {a : Nat} (fails : Bool) {ws : List Word} (s : State) (ha : a ≤ 32768)
    (h : 32768 < a + ws.length) : (loadFrom a fails ws s).fault =
      some { kind := .memoryOutOfBounds .write 32768#16 32767#16, faultIp := 0#16 } := by
  induction ws generalizing a s with
  | nil =>
    rw [List.length_nil] at h
    omega
  | cons w ws ih =>
    rw [List.length_cons] at h
    rcases loadFrom_cons_cases a fails w ws s ha with ⟨hin, e⟩ | ⟨-, e⟩
    · rw [e, ih _ (by omega) (by omega)]
    · rw [e, raise_fault]

theorem fault_loadFrom_fails {a : Nat} {ws : List Word} (s : State) (h : a + ws.length ≤ 32768) :
    (loadFrom a true ws s).fault = some { kind := .loadError, faultIp := 0#16 } := by
  rw [loadFrom_fits true s h]
  rfl

/-- R205: a fault leaves no step. -/
theorem no_step_of_faulted {s : State} (h : s.fault ≠ none) (t : State) : step s ≠ .next t := by
  intro hstep
  obtain ⟨-, hnone⟩ := running_of_step hstep
  exact h hnone

/-- Settles O59: which fault the load records, and that any fault leaves no step. -/
theorem loadFaultsBeforeTheFirstStep : Obligations.LoadFaultsBeforeTheFirstStep := by
  intro cfg ws fails answers
  refine ⟨fun h => ?overlong, fun h => ?fails⟩
  case overlong =>
    have hfault : (State.boot cfg ⟨ws, fails⟩ answers).fault = _ :=
      fault_loadFrom_overlong fails _ (Nat.zero_le _) ((Nat.zero_add _).symm ▸ h)
    exact ⟨hfault, no_step_of_faulted (by simp [hfault])⟩
  case fails =>
    have hfault : (State.boot cfg ⟨ws, true⟩ answers).fault = _ := fault_loadFrom_fails _ ((Nat.zero_add _).trans_le h)
    exact ⟨hfault, no_step_of_faulted (by simp [hfault])⟩

/-! ## Images as bytes (R45) -/

theorem toNat_wordOfBytes (b0 b1 : Byte) : (wordOfBytes b0 b1).toNat = b1.toNat * 256 + b0.toNat := by
  simp only [wordOfBytes, BitVec.toNat_ofNat]
  omega

theorem length_wordsOfBytes (bs : List Byte) : (wordsOfBytes bs).length = bs.length / 2 := by
  induction bs using wordsOfBytes.induct with
  | case1 b0 b1 rest ih =>
    simp only [wordsOfBytes, List.length_cons, ih]
    omega
  | case2 bs hshort =>
    match bs, hshort with
    | [], _ => rfl
    | [_], _ => simp [wordsOfBytes]
    | b0 :: b1 :: rest, hshort => exact absurd rfl (hshort b0 b1 rest)

theorem wordsOfBytes_getElem? {bs : List Byte} {k : Nat} {b0 b1 : Byte} (h0 : bs[2 * k]? = some b0)
    (h1 : bs[2 * k + 1]? = some b1) : (wordsOfBytes bs)[k]? = some (wordOfBytes b0 b1) := by
  induction bs using wordsOfBytes.induct generalizing k with
  | case1 c0 c1 rest ih =>
    cases k with
    | zero =>
      cases h0
      cases h1
      rfl
    | succ k => exact ih h0 h1
  | case2 bs hshort =>
    match bs, hshort with
    | [], _ => simp at h0
    | [_], _ => simp at h1
    | b0 :: b1 :: rest, hshort => exact absurd rfl (hshort b0 b1 rest)

/-- Settles O60: the pairs, counted and indexed. -/
theorem imageBytesPairLowFirst : Obligations.ImageBytesPairLowFirst :=
  fun bs => ⟨length_wordsOfBytes bs, fun _ b0 b1 h0 h1 =>
    ⟨_, wordsOfBytes_getElem? h0 h1, toNat_wordOfBytes b0 b1⟩⟩

/-! ## Fault codes (R200) -/

/-- Every kind has a code of its own above 0. -/
theorem code_ne_zero (k : FaultKind) : k.code ≠ 0 := by
  cases k <;> simp [FaultKind.code]

theorem faultCode_eq_zero (s : State) : s.faultCode = 0 ↔ s.fault = none := by
  unfold State.faultCode
  cases s.fault with
  | none => simp
  | some r => simp [code_ne_zero]

/-- Settles O57: R200's table, and 0 for no fault only. -/
theorem faultCodes : Obligations.FaultCodes :=
  ⟨fun _ _ _ => rfl, fun _ => rfl, fun _ => rfl, rfl, fun _ => rfl, rfl, rfl, rfl, rfl, fun _ => rfl,
    faultCode_eq_zero⟩

end Sys2Proof.Machine
end

section
/-! PROOFS. Runs: what every number of steps keeps (R80, R88, R180, R205). -/

namespace Sys2Proof.Machine

/-! ## The output (R180) -/

theorem output_of_effect {s t : State} {i : Instr} (h : Effect s i t) : ∃ sent, t.output = s.output ++ sent := by
  cases h with
  | send a => exact ⟨[(s.getOp a).setWidth 8], rfl⟩
  | result | pop | answered | goes | halts | faults | push | call | ret | store | waits => exact ⟨[], by simp⟩

theorem output_of_step {s t : State} (h : step s = .next t) : ∃ sent, t.output = s.output ++ sent := by
  cases stepEffect_of_step h with
  | resumes | rejects => exact ⟨[], by simp⟩
  | executes _ _ heffect => exact output_of_effect heffect

/-- Settles O54: the output is extended by each step, so by every run. -/
theorem outputOnlyGrows : Obligations.OutputOnlyGrows := by
  intro n s
  refine runFor_induction (P := fun u => ∃ sent, u.output = s.output ++ sent) ?_ n ⟨[], by simp⟩
  rintro u t ⟨sent, hu⟩ hstep
  obtain ⟨more, ht⟩ := output_of_step hstep
  exact ⟨sent ++ more, by rw [ht, hu, List.append_assoc]⟩

/-! ## Runs that ended (R31, R88, R205) -/

theorem runState_eq_halted (s : State) : s.runState = .halted ↔ s.halted = true := by
  unfold State.runState
  cases s.halted <;> cases s.fault <;> simp

theorem runState_eq_faulted (s : State) : s.runState = .faulted ↔ s.halted = false ∧ s.fault ≠ none := by
  unfold State.runState
  cases s.halted <;> cases s.fault <;> simp

/-- Settles O10: the flag comes first in the run state, then the fault register. -/
theorem haltedOrFaultedHasNoStep : Obligations.HaltedOrFaultedHasNoStep := by
  intro s h
  cases hh : s.halted with
  | true =>
    have hstop : step s = .fault .noStepHalted := by rw [step, (runState_eq_halted s).mpr hh]
    exact ⟨no_step_of_halted hh, .inl hstop⟩
  | false =>
    have hf : s.fault ≠ none := h.resolve_left (by simp [hh])
    have hstop : step s = .fault .noStepFaulted := by rw [step, (runState_eq_faulted s).mpr ⟨hh, hf⟩]
    exact ⟨no_step_of_faulted hf, .inr hstop⟩

section
variable {m n : Nat} {s : State}

/-- A run that left the running state stays where it is. -/
theorem runFor_add_of_ended (h : (runFor m s).runState ≠ .running) (n : Nat) : runFor (m + n) s = runFor m s := by
  rw [runFor_add]
  exact runFor_of_no_step (fun t hstep => h (step_next hstep).1) n

theorem runFor_eq_of_ended (hm : (runFor m s).runState ≠ .running) (hn : (runFor n s).runState ≠ .running) :
    runFor m s = runFor n s := by
  rcases Nat.le_total m n with hle | hle
  · obtain ⟨k, rfl⟩ := Nat.exists_eq_add_of_le hle
    exact (runFor_add_of_ended hm k).symm
  · obtain ⟨k, rfl⟩ := Nat.exists_eq_add_of_le hle
    exact runFor_add_of_ended hn k

theorem ended_of_endsNormally (h : EndsNormally m s) : (runFor m s).runState ≠ .running := by
  rw [EndsNormally] at h
  simp [h]

theorem ended_of_endsAbnormally (h : EndsAbnormally m s) : (runFor m s).runState ≠ .running := by
  rw [EndsAbnormally] at h
  simp [h]

/-- R31: the two ends are one state, which is not both. -/
theorem not_endsAbnormally_of_endsNormally (hm : EndsNormally m s) : ¬ EndsAbnormally n s := by
  intro hn
  have hsame := runFor_eq_of_ended (ended_of_endsNormally hm) (ended_of_endsAbnormally hn)
  rw [EndsNormally] at hm
  rw [EndsAbnormally, ← hsame, hm] at hn
  cases hn

end

/-- Settles O55: an ended run has no step, and two ended runs from one state end alike. -/
theorem endedRunsStayEnded : Obligations.EndedRunsStayEnded :=
  fun _ n _ => ⟨fun h => runFor_add_of_ended (ended_of_endsNormally h) n,
    fun h => runFor_add_of_ended (ended_of_endsAbnormally h) n, not_endsAbnormally_of_endsNormally⟩

end Sys2Proof.Machine
end
